-- ==== Sys2Proof/Word.lean ====
section
/-! DEFINITION. The machine's words: bytes of the wire format, 32-bit values, 34-bit command words. -/

namespace Sys2Proof

/-- One byte of a buffer transaction (`BYTE_W` = 8; 00_scope R5, R7). -/
abbrev Byte := BitVec 8

/-- A 32-bit value, a bit pattern always read as unsigned (`VALUE_W` = 32; 00_scope R5, R7). -/
abbrev Value := BitVec 32

/-- The 7 value bits of one byte (`GROUP_W` = 7; 00_scope R5; 30_encoding R40). -/
abbrev Group := BitVec 7

/-- The command word: bits 33:32 `cmd_op`, bits 31:0 `cmd_value` (30_encoding R49). -/
abbrev CommandWord := BitVec 34

end Sys2Proof
end

