-- ==== Sys2Proof/Config.lean ====
section
/-! DEFINITION. What is fixed for the machine: the constants of 00_scope R5, the codes of 30_encoding R50 and
60_exceptions R90, and the one value the model chose for the reference buffer. None of the spec's constants is
configurable. Of the spec's open parameters (00_scope R6), `Buffer` is data of the state and `BufErr`
an argument of `State` and of every operation, no constants (notes/assumptions 1 and 8). -/

namespace Sys2Proof.Config

/-- `CONT_MASK`: the continuation bit of a byte, bit 7 (00_scope R5). -/
abbrev contMask : Byte := 0x80#8

/-- `GROUP_MASK`: the value bits of a byte, bits 6 to 0 (00_scope R5). -/
abbrev groupMask : Byte := 0x7F#8

/-- `GROUP_W`: value bits carried per byte (00_scope R5). -/
abbrev groupWidth : Nat := 7

/-- `MAX_ENC_BYTES`: the most bytes ENCODE ever writes (00_scope R5). -/
abbrev maxEncBytes : Nat := 5

/-- `ACC_GROUPS`: how many leading bytes contribute to `ACC` (00_scope R5). -/
abbrev accGroups : Nat := 5

/-- `MAX_DEC_BYTES`: the most bytes DECODE ever reads (00_scope R5). -/
abbrev maxDecBytes : Nat := 10

/-- `cmd_op` of DECODE (30_encoding R50). -/
abbrev opDecode : BitVec 2 := 0b00#2

/-- `cmd_op` of ENCODE (30_encoding R50). -/
abbrev opEncode : BitVec 2 := 0b01#2

/-- `cmd_op` of SIZEOF (30_encoding R50). -/
abbrev opSizeof : BitVec 2 := 0b10#2

/-- The reserved `cmd_op` (30_encoding R50, R53). -/
abbrev opReserved : BitVec 2 := 0b11#2

/-- `rsp_status` of `OK` (60_exceptions R90). -/
abbrev statusOk : BitVec 2 := 0#2

/-- `rsp_status` of `ERR_VARINT_TOO_LONG` (60_exceptions R90). -/
abbrev statusTooLong : BitVec 2 := 1#2

/-- `rsp_status` of `ERR_BUFFER_READ` (60_exceptions R90). -/
abbrev statusBufferRead : BitVec 2 := 2#2

/-- `rsp_status` of `ERR_BUFFER_WRITE` (60_exceptions R90). -/
abbrev statusBufferWrite : BitVec 2 := 3#2

/-- What an index of the reference buffer's memory that nothing has written reads as. DESIGN CHOICE, unsafe
(notes/assumptions/2.md): 20_memory R39 gives `RefBuf` a total `mem` and no contents. -/
abbrev unlistedByte : Byte := 0#8

end Sys2Proof.Config
end

