-- ==== Sys2Proof/Machine/Flags.lean ====
section
/-! DEFINITION. The block has no flags (10_state R15). These are the two conditions its data paths compute and
consume at once. -/

namespace Sys2Proof.Machine

/-- The continuation-bit checker's test of a byte read: bit 7 (40_decode R63; 30_encoding R40, R46). -/
def contBit (b : Byte) : Bool := (b &&& Config.contMask) != 0#8

/-- The encoder's test "bits above bit 6 still set": `REM[31:7] != 0` (41_encode R71; 10_state R15). -/
def moreGroups (rem : Value) : Bool := rem.extractLsb' 7 25 != 0#25

end Sys2Proof.Machine
end

