-- ==== Sys2Proof/Syntax.lean ====
section
/-! DEFINITION. The syntax of the three operations, one constructor per row of spec/opcode_table.json. -/

namespace Sys2Proof

/-- A command (30_encoding R49, R50). Each constructor carries the command word's one operand field. -/
inductive Instr
  /-- `DECODE` (40_decode R60). The operand is the `cmd_value` that happens to be driven; the operation ignores it
  (30_encoding R51). It is kept so that no bit of the command word is lost (notes/assumptions/12.md). -/
  | decode (cmdValue : Value)
  /-- `ENCODE v` (41_encode R70). -/
  | encode (cmdValue : Value)
  /-- `SIZEOF v` (42_sizeof R80). -/
  | sizeof (cmdValue : Value)
  deriving DecidableEq, Repr

end Sys2Proof
end

