-- ==== Sys2Proof/Machine/State.lean ====
section
/-! DEFINITION. The machine's state as plain data: the block (10_state R19), its response port (R16), the caller's
inputs, the buffer behind the port (R17) and the record of the events at the ports; why a step may stop; reset. -/

namespace Sys2Proof.Machine

/-- The block's condition and its working registers (10_state R11 to R13, R19): idle carries no register, because
none can be read before an operation writes it (R21, R22). `IDX` is a natural number, bounded by an invariant
(92 D20; Safety.lean; notes/assumptions/4.md). -/
inductive Block
  /-- No operation in progress; a command can be accepted. -/
  | idle
  /-- A DECODE in progress: `ACC`, and `IDX` bytes read so far, none a terminator. -/
  | decoding (acc : Value) (idx : Nat)
  /-- An ENCODE in progress: `REM`, and `IDX` bytes written so far, all with the continuation bit set. -/
  | encoding (rem : Value) (idx : Nat)
  deriving DecidableEq, Repr

/-- The type `exec` and `step` are run at where the model's parameter `BufErr` must be some type: `RefBuf`'s two
tokens (20_memory R39), and one for every number. DESIGN CHOICE, safe (notes/assumptions/8.md): the operations are
written for every type, and none looks at a token. -/
inductive FailureToken
  | underflow
  | overflow
  | token (n : Nat)
  deriving DecidableEq, Repr

/-! ### The parameter `BufErr`

"BufErr" is an open parameter of the model, "opaque to the block" (00_scope R6; 92 D6; 93 U6): every type below that
can hold a failure token takes it as an argument, and so does every operation over them. A name written without the
argument is the type at `FailureToken`. -/

/-- What a buffer answers to `ReadByte()` (20_memory R25). -/
inductive ReadAnswer (BufErr : Type := FailureToken)
  | ok (b : Byte)
  | fail (e : BufErr)
  deriving DecidableEq, Repr

/-- What a buffer answers to `WriteByte(b)` (20_memory R26). -/
inductive WriteAnswer (BufErr : Type := FailureToken)
  | ok
  | fail (e : BufErr)
  deriving DecidableEq, Repr

/-- The reference buffer's bytes: strictly rising indices, no entry equal to `Config.unlistedByte`
(20_memory R39; notes/assumptions/2.md). -/
abbrev Memory := List Host.Cell

/-- The reference buffer (20_memory R39): the readable bytes are those at `rpos` up to `wpos - 1`, the room left is
`cap - wpos`, and the two tokens are what it fails with: of R39's `{ Underflow, Overflow }`, as tokens of whatever type
the model is run at. It is not part of the hardware and no rule of the block depends on it. -/
structure RefBuf (BufErr : Type := FailureToken) where
  mem : Memory
  rpos : Nat
  wpos : Nat
  cap : Nat
  underflow : BufErr
  overflow : BufErr
  deriving DecidableEq, Repr

/-- The buffer behind the port (10_state R17; 00_scope R6). -/
inductive Buffer (BufErr : Type := FailureToken)
  /-- The free oracle (20_memory R27): the answers it will give to the reads and to the writes still to come, in
  order. Where a list is empty the buffer does not answer (60_exceptions R95; notes/assumptions/1.md). -/
  | oracle (reads : List (ReadAnswer BufErr)) (writes : List (WriteAnswer BufErr))
  /-- The reference buffer. -/
  | refBuf (r : RefBuf BufErr)
  deriving DecidableEq, Repr

/-- The errors an operation can end with (60_exceptions R90). -/
inductive OpError (BufErr : Type := FailureToken)
  | varintTooLong
  | bufferReadFailure (e : BufErr)
  | bufferWriteFailure (e : BufErr)
  deriving DecidableEq, Repr

/-- A response, as the sum type 30_encoding R52 allows: `OK` with the result where there is one (ENCODE has none), or
an error, which has no result. -/
inductive Response (BufErr : Type := FailureToken)
  | ok (result : Option Value)
  | error (e : OpError BufErr)
  deriving DecidableEq, Repr

/-- One atomic event at the block's ports (92 D1, D2, D3, D6). -/
inductive Event (BufErr : Type := FailureToken)
  /-- A command was accepted. -/
  | command (i : Instr)
  /-- `ReadByte()` with its answer. -/
  | read (a : ReadAnswer BufErr)
  /-- `WriteByte(b)` with its answer. -/
  | write (b : Byte) (a : WriteAnswer BufErr)
  /-- The response of the operation. -/
  | response (r : Response BufErr)
  /-- Reset was applied to the block (10_state R20, R22). -/
  | reset
  deriving DecidableEq, Repr

/-- What the caller does next (30_encoding R58; 70_reset_and_hazards R116; 10_state R20). -/
inductive CallerInput
  /-- It drives this word on the command port. -/
  | command (w : CommandWord)
  /-- It applies reset. -/
  | reset
  deriving DecidableEq, Repr

/-- Why the machine has no next event. None of these stops an operation that could go on. -/
inductive Fault
  /-- Raised by `step` when the block is idle and the caller issues nothing. Safe: a stuck state, lifted by the
  caller's next input (70_reset_and_hazards R116; notes/assumptions/6.md). -/
  | noCommand
  /-- Raised by `step` when an operation is in progress and the buffer does not answer its next transaction. Safe: the
  spec's stuck state, there is no timeout (60_exceptions R95; 93 U9; notes/assumptions/6.md). -/
  | bufferDoesNotAnswer
  /-- Raised by a meaning applied to a busy block, never by `step`: "a command event [has] no step in a busy state".
  Safe (70_reset_and_hazards R116; 93 U8; notes/assumptions/6.md). -/
  | commandWhileBusy
  deriving DecidableEq, Repr

/-- Why a command has no meaning. -/
inductive Refusal
  /-- Raised by `exec` for an instruction the model has not reached (none). Safe. -/
  | notModelled (mnemonic : String)
  /-- Raised by `step` for a command word with `cmd_op = 0b11`: "a model should refuse it". Safe
  (30_encoding R53; 93 U1; notes/assumptions/7.md). -/
  | reservedCommand
  deriving DecidableEq, Repr

/-- The block with everything it exchanges something with. -/
structure State (BufErr : Type := FailureToken) where
  /-- The block itself. -/
  block : Block
  /-- The response port: the last operation's response, none before the first and none while an operation is in
  progress (10_state R16, R21; notes/assumptions/9.md). -/
  response : Option (Response BufErr)
  /-- What the caller will do, in order. -/
  caller : List CallerInput
  /-- What stands behind the buffer port. -/
  buffer : Buffer BufErr
  /-- The model's own record of the events at the ports, oldest first; the block never reads it
  (notes/assumptions/11.md). -/
  trace : List (Event BufErr)
  deriving DecidableEq, Repr

/-- The machine right after reset: idle, no response, no transaction issued (10_state R20, R21; 70 R110). The
environment is the caller's to set up (R111 to R114): here it has issued nothing and no buffer has answered
anything. DESIGN CHOICE, unsafe (notes/assumptions/3.md). -/
def State.reset : State where
  block := .idle
  response := none
  caller := []
  buffer := .oracle [] []
  trace := []

end Sys2Proof.Machine
end

