-- ==== Sys2Proof/Machine/Operands.lean ====
section
/-! DEFINITION. The data paths' operand forms: the arithmetic primitives of 00_scope R8, the decoder's group
extraction and accumulation, the encoder's byte, the size thresholds, and the response's fields on the port. -/

namespace Sys2Proof.Machine

variable {BufErr : Type}

/-- `shl32(v, s)`: left shift, the amount NOT taken modulo 32, bits past bit 31 dropped (00_scope R8). -/
def shl32 (v : Value) (s : Nat) : Value := v <<< s

/-- `lsr32(v, s)`: logical right shift, zeros enter at the top (00_scope R8; 41_encode R73). -/
def lsr32 (v : Value) (s : Nat) : Value := v >>> s

/-- The 7-bit-group extractor: `b[6:0]` (40_decode R62). -/
def groupOf (b : Byte) : Group := b.extractLsb' 0 7

/-- The accumulate step (40_decode R62, R64): the first five groups are zero-extended, shifted by `7 * IDX` and or-ed
in; the groups of later bytes are discarded. -/
def absorb (acc : Value) (idx : Nat) (b : Byte) : Value :=
  if idx < Config.accGroups then
    acc ||| shl32 ((groupOf b).zeroExtend 32) (Config.groupWidth * idx)
  else acc

/-- The continuation-bit mapper: the byte written for `REM` is `{c, REM[6:0]}` (41_encode R72). -/
def outByte (rem : Value) : Byte :=
  (if moreGroups rem then 1#1 else 0#1) ++ rem.extractLsb' 0 7

/-- How many bytes ENCODE would write, by unsigned thresholds (42_sizeof R80 to R82). -/
def sizeOfValue (v : Value) : Nat :=
  if v < 0x00000080#32 then 1
  else if v < 0x00004000#32 then 2
  else if v < 0x00200000#32 then 3
  else if v < 0x10000000#32 then 4
  else 5

/-- The port field `rsp_status` of a response (10_state R16; 30_encoding R52; 60_exceptions R90). -/
def rspStatus : Response BufErr → BitVec 2
  | .ok _ => Config.statusOk
  | .error .varintTooLong => Config.statusTooLong
  | .error (.bufferReadFailure _) => Config.statusBufferRead
  | .error (.bufferWriteFailure _) => Config.statusBufferWrite

/-- The port field `rsp_result`: the result, and 0, to be ignored, where there is none (10_state R16;
30_encoding R52; notes/assumptions/14.md). -/
def rspResult : Response BufErr → Value
  | .ok (some v) => v
  | .ok none => 0#32
  | .error _ => 0#32

/-- The port field `rsp_err`: the buffer's token with status 2 or 3, otherwise absent (10_state R16; 30_encoding R52;
93 U4; notes/assumptions/14.md). -/
def rspErr : Response BufErr → Option BufErr
  | .ok _ => none
  | .error .varintTooLong => none
  | .error (.bufferReadFailure e) => some e
  | .error (.bufferWriteFailure e) => some e

end Sys2Proof.Machine
end

