-- ==== Sys2Proof/Machine/Ops.lean ====
section
/-! DEFINITION. The named operations over the state: the reference buffer's memory, the buffer port, accepting a
command, ending an operation (with a result or an error, the block's only kind of exception), reset, and the loop. -/

namespace Sys2Proof.Machine

variable {BufErr : Type}

/-! ### The reference buffer's memory -/

/-- The byte at index `a`. -/
def Memory.read : Memory → Nat → Byte
  | [], _ => Config.unlistedByte
  | (k, c) :: m, a => if k = a then c else Memory.read m a

/-- The memory with byte `b` at index `a`, in canonical form. -/
def Memory.write : Memory → Nat → Byte → Memory
  | [], a, b => if b = Config.unlistedByte then [] else [(a, b)]
  | (k, c) :: m, a, b =>
    if a < k then (if b = Config.unlistedByte then (k, c) :: m else (a, b) :: (k, c) :: m)
    else if a = k then (if b = Config.unlistedByte then m else (a, b) :: m)
    else (k, c) :: Memory.write m a b

/-- The canonical form from index `lo` on: strictly rising indices from `lo`, no entry equal to what an unlisted index
reads as. -/
def Memory.wfFrom : Nat → Memory → Bool
  | _, [] => true
  | lo, (k, c) :: m => decide (lo ≤ k) && c != Config.unlistedByte && Memory.wfFrom (k + 1) m

/-- The canonical form. -/
def Memory.wf (m : Memory) : Bool := Memory.wfFrom 0 m

/-! ### The buffer port -/

/-- `RefBuf`'s answer to `ReadByte()`; a failure changes nothing (20_memory R39). -/
def RefBuf.readByte (r : RefBuf BufErr) : ReadAnswer BufErr × RefBuf BufErr :=
  if r.rpos < r.wpos then (.ok (Memory.read r.mem r.rpos), { r with rpos := r.rpos + 1 })
  else (.fail r.underflow, r)

/-- `RefBuf`'s answer to `WriteByte(b)`; a failure changes nothing (20_memory R39). -/
def RefBuf.writeByte (r : RefBuf BufErr) (b : Byte) : WriteAnswer BufErr × RefBuf BufErr :=
  if r.wpos < r.cap then (.ok, { r with mem := Memory.write r.mem r.wpos b, wpos := r.wpos + 1 })
  else (.fail r.overflow, r)

/-- The answer of the buffer to `ReadByte()`, and the buffer afterwards; `none` where it does not answer
(20_memory R25, R27; 60_exceptions R95). -/
def Buffer.readByte : Buffer BufErr → Option (ReadAnswer BufErr × Buffer BufErr)
  | .oracle [] _ => none
  | .oracle (a :: reads) writes => some (a, .oracle reads writes)
  | .refBuf r => some (r.readByte.1, .refBuf r.readByte.2)

/-- The answer of the buffer to `WriteByte(b)`, and the buffer afterwards; `none` where it does not answer
(20_memory R26, R27; 60_exceptions R95). -/
def Buffer.writeByte : Buffer BufErr → Byte → Option (WriteAnswer BufErr × Buffer BufErr)
  | .oracle _ [], _ => none
  | .oracle reads (a :: writes), _ => some (a, .oracle reads writes)
  | .refBuf r, b => some ((r.writeByte b).1, .refBuf (r.writeByte b).2)

/-- The bytes the buffer holds: `RefBuf`'s memory; an oracle holds none that the model can name. -/
def Buffer.memory : Buffer BufErr → Memory
  | .oracle _ _ => []
  | .refBuf r => r.mem

/-! ### Single updates of the state -/

/-- The state with another block condition. -/
def State.withBlock (s : State BufErr) (b : Block) : State BufErr := { s with block := b }

/-- The state with another response on the port. -/
def State.withResponse (s : State BufErr) (r : Option (Response BufErr)) : State BufErr := { s with response := r }

/-- The state with other caller inputs to come. -/
def State.withCaller (s : State BufErr) (c : List CallerInput) : State BufErr := { s with caller := c }

/-- The state with another buffer. -/
def State.withBuffer (s : State BufErr) (b : Buffer BufErr) : State BufErr := { s with buffer := b }

/-- The state with one more event in the record. -/
def State.record (s : State BufErr) (e : Event BufErr) : State BufErr := { s with trace := s.trace ++ [e] }

/-! ### Transactions -/

/-- One `ReadByte()` transaction, request and answer as one event (20_memory R24, R25); `none` where the buffer does
not answer. -/
def State.readByte (s : State BufErr) : Option (ReadAnswer BufErr × State BufErr) :=
  match s.buffer.readByte with
  | none => none
  | some (a, buf) => some (a, (s.withBuffer buf).record (.read a))

/-- One `WriteByte(b)` transaction, request and answer as one event (20_memory R24, R26); `none` where the buffer does
not answer. -/
def State.writeByte (s : State BufErr) (b : Byte) : Option (WriteAnswer BufErr × State BufErr) :=
  match s.buffer.writeByte b with
  | none => none
  | some (a, buf) => some (a, (s.withBuffer buf).record (.write b a))

/-! ### Beginning and ending an operation -/

/-- The end of an operation, one mechanism for success and error (60_exceptions R98, R100): the working registers are
abandoned, one response is produced, the block is idle. No transaction follows, nothing is rolled back (R99). -/
def finish (r : Response BufErr) (s : State BufErr) : State BufErr :=
  ((s.withBlock .idle).withResponse (some r)).record (.response r)

/-- `complete(result)` (00_scope R9; 60_exceptions R100). -/
def complete (result : Option Value) (s : State BufErr) : State BufErr := finish (.ok result) s

/-- `raise E(info)`, the block's exception: it saves nothing and goes nowhere, the caller receives the response
(60_exceptions R98). Nothing is sticky, so there is no return from it (R101). -/
def raise (e : OpError BufErr) (s : State BufErr) : State BufErr := finish (.error e) s

/-- The command event: the caller has taken the last response and this command is accepted (30_encoding R49;
70_reset_and_hazards R116; notes/assumptions/9.md). -/
def accept (i : Instr) (s : State BufErr) : State BufErr := (s.withResponse none).record (.command i)

/-- An operation is begun only in an idle block; a command event has no step in a busy one
(70_reset_and_hazards R116; 42_sizeof R86). -/
def whenIdle (s : State BufErr) (t : State BufErr) : Host.Outcome (State BufErr) Fault Refusal :=
  match s.block with
  | .idle => .next t
  | .decoding _ _ => .fault .commandWhileBusy
  | .encoding _ _ => .fault .commandWhileBusy

/-- Reset of the block, idle or busy: idle afterwards, no response pending, no transaction issued, nothing rolled back
(10_state R20 to R22; 70_reset_and_hazards R110). -/
def resetBlock (s : State BufErr) : State BufErr := ((s.withBlock .idle).withResponse none).record .reset

/-- `loop`: at most `n` passes, ending early where no further pass is possible (00_scope R9; 70_reset_and_hazards
R121, R123: the spec's bounds are all the fuel there is). -/
def iterate (pass : State BufErr → Option (State BufErr)) : Nat → State BufErr → State BufErr
  | 0, s => s
  | n + 1, s =>
    match pass s with
    | none => s
    | some t => iterate pass n t

end Sys2Proof.Machine
end

