-- ==== Sys2Proof/Machine/DecodeOp.lean ====
section
/-! DEFINITION. The DECODE operation, the varint_decoder (40_decode.md). -/

namespace Sys2Proof.Machine

variable {BufErr : Type}

/-- What one byte read does to a DECODE (40_decode R60): absorb it, count it, then end at a terminator (R63), fail at
the tenth byte with its continuation bit set (R65), or go round again. -/
def decodeByte (acc : Value) (idx : Nat) (b : Byte) (s : State BufErr) : State BufErr :=
  if contBit b then
    if Config.maxDecBytes ≤ idx + 1 then raise .varintTooLong s
    else s.withBlock (.decoding (absorb acc idx b) (idx + 1))
  else complete (some (absorb acc idx b)) s

/-- One pass of DECODE's loop, one `ReadByte()` transaction (40_decode R60, R68); no pass where no DECODE is in
progress or the buffer does not answer. -/
def decodePass (s : State BufErr) : Option (State BufErr) :=
  match s.block with
  | .idle => none
  | .encoding _ _ => none
  | .decoding acc idx =>
    match s.readByte with
    | none => none
    | some (.fail e, t) => some (raise (.bufferReadFailure e) t)
    | some (.ok b, t) => some (decodeByte acc idx b t)

/-- The passes of DECODE from here on, as far as the buffer answers: to the response, or to the transaction it does
not answer (40_decode R60, R67; notes/assumptions/5.md). -/
def runDecode (s : State BufErr) : State BufErr := iterate decodePass Config.maxDecBytes s

/-- `DECODE` (40_decode R60): `ACC <- 0`, `IDX <- 0`, then the loop. `cmd_value` is ignored (30_encoding R51). -/
def execDecode (cmdValue : Value) (s : State BufErr) : Host.Outcome (State BufErr) Fault Refusal :=
  whenIdle s (runDecode ((accept (.decode cmdValue) s).withBlock (.decoding 0#32 0)))

end Sys2Proof.Machine
end

