-- ==== Sys2Proof/Machine/EncodeOp.lean ====
section
/-! DEFINITION. The ENCODE operation, the varint_encoder (41_encode.md). -/

namespace Sys2Proof.Machine

variable {BufErr : Type}

/-- What a byte written does to an ENCODE (41_encode R70, R71): the last byte completes, any other shifts `REM`
logically by 7 and goes round again. -/
def encodeByte (rem : Value) (idx : Nat) (s : State BufErr) : State BufErr :=
  if moreGroups rem then s.withBlock (.encoding (lsr32 rem Config.groupWidth) (idx + 1))
  else complete none s

/-- One pass of ENCODE's loop, one `WriteByte` transaction (41_encode R70, R72, R77); no pass where no ENCODE is in
progress or the buffer does not answer. -/
def encodePass (s : State BufErr) : Option (State BufErr) :=
  match s.block with
  | .idle => none
  | .decoding _ _ => none
  | .encoding rem idx =>
    match s.writeByte (outByte rem) with
    | none => none
    | some (.fail e, t) => some (raise (.bufferWriteFailure e) t)
    | some (.ok, t) => some (encodeByte rem idx t)

/-- The passes of ENCODE from here on, as far as the buffer answers (41_encode R70, R74;
notes/assumptions/5.md). -/
def runEncode (s : State BufErr) : State BufErr := iterate encodePass Config.maxEncBytes s

/-- `ENCODE v` (41_encode R70): `REM <- cmd_value`, `IDX <- 0`, then the loop. -/
def execEncode (cmdValue : Value) (s : State BufErr) : Host.Outcome (State BufErr) Fault Refusal :=
  whenIdle s (runEncode ((accept (.encode cmdValue) s).withBlock (.encoding cmdValue 0)))

end Sys2Proof.Machine
end

