-- ==== Sys2Proof/Machine/SizeofOp.lean ====
section
/-! DEFINITION. The SIZEOF operation (42_sizeof.md). -/

namespace Sys2Proof.Machine

variable {BufErr : Type}

/-- `SIZEOF v` (42_sizeof R80): no register, no transaction, always `OK` with the byte count zero-extended to 32
bits. -/
def execSizeof (cmdValue : Value) (s : State BufErr) : Host.Outcome (State BufErr) Fault Refusal :=
  whenIdle s
    (complete (some (BitVec.ofNat 32 (sizeOfValue cmdValue))) (accept (.sizeof cmdValue) s))

end Sys2Proof.Machine
end

