-- ==== Sys2Proof/Machine/Dispatch.lean ====
section
/-! DEFINITION. One arm per constructor of Instr: the command event of each operation. -/

namespace Sys2Proof.Machine

-- Each meaning runs its operation from the command to the response, or to the transaction the buffer does not answer.
def exec (i : Instr) (s : State) : Host.Outcome State Fault Refusal :=
  match i with
  | .decode v => Sys2Proof.Machine.execDecode v s
  | .encode v => Sys2Proof.Machine.execEncode v s
  | .sizeof v => Sys2Proof.Machine.execSizeof v s

end Sys2Proof.Machine
end

