-- ==== Sys2Proof/WellFormed.lean ====
section
/-! DEFINITION. What is well formed: every instruction is (each operand is any 32-bit pattern), and a command word
is unless its `cmd_op` is the reserved code. -/

namespace Sys2Proof

/-- No operand pattern is illegal: `cmd_value` is "a 32-bit pattern read as unsigned" and "every pattern is a legal
operand" (30_encoding R45, R56; 41_encode R78), and DECODE ignores it (30_encoding R51). -/
def Instr.wellFormed : Instr → Bool
  | .decode _ => true
  | .encode _ => true
  | .sizeof _ => true

/-- A command word is well formed unless bits 33:32 are the reserved code `0b11` (30_encoding R49, R53). -/
def commandWellFormed (w : CommandWord) : Bool :=
  w.extractLsb' 32 2 != Config.opReserved

end Sys2Proof
end

