-- ==== Sys2Proof/Decode.lean ====
section
/-! DEFINITION. Decoding of command words, total, rejecting by name, and after it the encoder. These are about the
34-bit COMMAND word (30_encoding R49, R50); the operations DECODE and ENCODE on the wire format stand in
Machine/DecodeOp.lean and Machine/EncodeOp.lean. -/

namespace Sys2Proof

/-- Why a command word is no command. -/
inductive DecodeError
  /-- `cmd_op = 0b11` (30_encoding R53). -/
  | reservedCode
  deriving DecidableEq, Repr

/-- The field `cmd_op`, bits 33:32 (30_encoding R49). -/
def cmdOp (w : CommandWord) : BitVec 2 := w.extractLsb' 32 2

/-- The field `cmd_value`, bits 31:0 (30_encoding R49). -/
def cmdValue (w : CommandWord) : Value := w.extractLsb' 0 32

/-- The command a word stands for; "a decoder for commands needs `cmd_op` only" (30_encoding R50, R53). -/
def decodeCommand (w : CommandWord) : Except DecodeError Instr :=
  if cmdOp w = Config.opDecode then .ok (.decode (cmdValue w))
  else if cmdOp w = Config.opEncode then .ok (.encode (cmdValue w))
  else if cmdOp w = Config.opSizeof then .ok (.sizeof (cmdValue w))
  else .error .reservedCode

/-- The command word of an instruction: `{cmd_op, cmd_value}` (30_encoding R49, R50). -/
def encodeCommand : Instr → CommandWord
  | .decode v => Config.opDecode ++ v
  | .encode v => Config.opEncode ++ v
  | .sizeof v => Config.opSizeof ++ v

/-- The instruction the decoder reads from a command word given as a number, bit 0 least significant. A number of
more than 34 bits is no command word: the command has 34 bits (30_encoding R49). The number of bits the table gives
plays no part, since every row has one format and width (30_encoding R57). -/
def decodeTableWord (_nbits w : Nat) : Option Instr :=
  if w < 2 ^ 34 then
    match decodeCommand (BitVec.ofNat 34 w) with
    | .ok i => some i
    | .error _ => none
  else none

end Sys2Proof
end

