-- ==== Sys2Proof/Machine/Resume.lean ====
section
/-! DEFINITION. The operation in progress going on (10_state R18, R19). -/

namespace Sys2Proof.Machine

variable {BufErr : Type}

/-- The next pass of the operation in progress; none when idle or when the buffer does not answer. -/
def nextPass (s : State BufErr) : Option (State BufErr) :=
  match s.block with
  | .idle => none
  | .decoding _ _ => decodePass s
  | .encoding _ _ => encodePass s

/-- The passes of the operation in progress, as far as the buffer answers. -/
def runOperation (s : State BufErr) : State BufErr :=
  match s.block with
  | .idle => s
  | .decoding _ _ => runDecode s
  | .encoding _ _ => runEncode s

/-- A busy block goes on with its operation; where the buffer does not answer it is stuck (60_exceptions R95;
93 U9). -/
def resume (s : State BufErr) : Host.Outcome (State BufErr) Fault Refusal :=
  match nextPass s with
  | none => .fault .bufferDoesNotAnswer
  | some _ => .next (runOperation s)

end Sys2Proof.Machine
end

