-- ==== Sys2Proof/Machine/Generic.lean ====
section
/-! DEFINITION. The machine with the type `BufErr` of failure tokens as its argument (00_scope R6; 92 D6; 93 U6): the
command event of every operation, and one step, at every such type. -/

namespace Sys2Proof.Machine

variable {BufErr : Type}

/-- The command event of each operation, whatever the type of failure tokens. At `FailureToken` this is `exec`. -/
def execAt (i : Instr) (s : State BufErr) : Host.Outcome (State BufErr) Fault Refusal :=
  match i with
  | .decode v => execDecode v s
  | .encode v => execEncode v s
  | .sizeof v => execSizeof v s

/-- The caller drives the command word `w`, with `rest` to come after it: the command is decoded and run by `run`, the
reserved code is refused (30_encoding R50, R53). -/
def issueWith (run : Instr → State BufErr → Host.Outcome (State BufErr) Fault Refusal) (w : CommandWord)
    (rest : List CallerInput) (s : State BufErr) : Host.Outcome (State BufErr) Fault Refusal :=
  match decodeCommand w with
  | .ok i => run i (s.withCaller rest)
  | .error .reservedCode => .refused .reservedCommand

/-- One step, with `run` for the command event. A reset that is the caller's next input acts in an idle and in a busy
block (10_state R22); a command is accepted only by an idle block and waits at the port otherwise
(70_reset_and_hazards R116). DESIGN CHOICE, where a reset may fall inside an operation: between steps, so only where
the operation waits for a silent buffer, and not past a command that waits (92 D10 lets a model leave it out;
notes/assumptions/18.md). -/
def stepWith (run : Instr → State BufErr → Host.Outcome (State BufErr) Fault Refusal) (s : State BufErr) :
    Host.Outcome (State BufErr) Fault Refusal :=
  match s.caller, s.block with
  | .reset :: rest, _ => .next (resetBlock (s.withCaller rest))
  | .command w :: rest, .idle => issueWith run w rest s
  | .command _ :: _, .decoding _ _ => resume s
  | .command _ :: _, .encoding _ _ => resume s
  | [], .idle => .fault .noCommand
  | [], .decoding _ _ => resume s
  | [], .encoding _ _ => resume s

/-- One step, whatever the type of failure tokens. At `FailureToken` this is `step`. -/
def stepAt (s : State BufErr) : Host.Outcome (State BufErr) Fault Refusal := stepWith execAt s

end Sys2Proof.Machine
end

