-- ==== Sys2Proof/Machine/Step.lean ====
section
/-! DEFINITION. One step: the caller's reset, or the next command of an idle block, or the operation in progress
going on. -/

namespace Sys2Proof.Machine

/-- One step, with `exec` for the command event (10_state R22; 70_reset_and_hazards R116; notes/assumptions/18.md). -/
def step (s : State) : Host.Outcome State Fault Refusal := stepWith exec s

/-- The state whose very next step runs the command word `w` (bit 0 least significant, 34 bits): an idle block with
that word at the head of what the caller does (70_reset_and_hazards R116; notes/assumptions/13.md). -/
def State.withFetchWord (s : State) (_nbits w : Nat) : State :=
  { s with block := .idle, caller := .command (BitVec.ofNat 34 w) :: s.caller }

end Sys2Proof.Machine
end

