-- ==== Sys2Proof/Safety.lean ====
section
/-! DEFINITION. The terms claims are made in, written from the spec's closed formulas and not from the model's
functions: the wire format (30_encoding R41 to R47), the invariant of the state, and the spec's event-level machine
(10_state R19, 92 D1). -/

namespace Sys2Proof.Safety

open Sys2Proof.Machine

/-! ### The wire format -/

/-- The byte's continuation bit is 1: its number is 0x80 or more (30_encoding R40). -/
def continues (b : Byte) : Bool := decide (128 ≤ b.toNat)

/-- The byte strings DECODE accepts: 1 to 10 bytes, all but the last with bit 7 set, the last with bit 7 clear
(30_encoding R47). -/
def accepted (bs : List Byte) : Bool :=
  decide (1 ≤ bs.length) && decide (bs.length ≤ 10) && bs.dropLast.all continues &&
    bs.getLast?.any fun b => !continues b

/-- The value of the bytes consumed (30_encoding R43): the groups of the first five, group `i` times `2^(7i)`, added
and truncated to 32 bits. -/
def assembled (bs : List Byte) : Value :=
  BitVec.ofNat 32 ((bs.take 5).mapIdx fun i b => b.toNat % 128 * 2 ^ (7 * i)).sum

/-- The canonical length: the smallest `n` in 1 to 5 with `v < 2^(7n)` (30_encoding R42). -/
def canonicalLength (v : Value) : Nat :=
  ([1, 2, 3, 4, 5].find? fun n => decide (v.toNat < 2 ^ (7 * n))).getD 5

/-- The source's layout formula, `((value >> (7*i)) & 0x7F) | (i < last ? 0x80 : 0x00)` (30_encoding R41). -/
def canonicalByte (v : Value) (i : Nat) : Byte :=
  (BitVec.setWidth 8 (v >>> (7 * i)) &&& 0x7F#8) ||| (if i < canonicalLength v - 1 then 0x80#8 else 0x00#8)

/-- The canonical encoding, first byte first (30_encoding R41, R42). -/
def canonicalEncoding (v : Value) : List Byte := (List.range (canonicalLength v)).map (canonicalByte v)

/-! ### What crosses the ports -/

/-- Reads answered `Ok`. -/
def readEvents (bs : List Byte) : List Event := bs.map fun b => .read (.ok b)

/-- Writes answered `Ok`. -/
def writeEvents (bs : List Byte) : List Event := bs.map fun b => .write b .ok

/-- The event is a read transaction. -/
def isRead : Event → Bool
  | .read _ => true
  | _ => false

/-- The event is a write transaction. -/
def isWrite : Event → Bool
  | .write _ _ => true
  | _ => false

/-- The event is a response. -/
def isResponse : Event → Bool
  | .response _ => true
  | _ => false

/-- The event is a command. -/
def isCommand : Event → Bool
  | .command _ => true
  | _ => false

/-- The response an event carries, if it is one. -/
def responseOf : Event → Option Response
  | .response r => some r
  | _ => none

/-- The events recorded between `s` and a later `t`. -/
def eventsSince (s t : State) : List Event := t.trace.drop s.trace.length

/-- The state in which an operation begun in `s` has ended with response `r`, the buffer being `buf` and the events
`es`: the block is idle, the response is on the port, the caller's inputs are as they were. -/
def ended (s : State) (r : Response) (buf : Buffer) (es : List Event) : State :=
  { s with block := .idle, response := some r, buffer := buf, trace := s.trace ++ es }

/-- The state in which an operation begun in `s` waits, with condition `b`, for the buffer's next answer. -/
def waiting (s : State) (b : Block) (buf : Buffer) (es : List Event) : State :=
  { s with block := b, response := none, buffer := buf, trace := s.trace ++ es }

/-- The buffer after it has answered the transactions among these events, in order and as the events say; none where
it would answer one of them otherwise or not at all. -/
def afterAnswering : Buffer → List Event → Option Buffer
  | buf, [] => some buf
  | buf, .read a :: es =>
    match buf.readByte with
    | some (a', buf') => if a' = a then afterAnswering buf' es else none
    | none => none
  | buf, .write b a :: es =>
    match buf.writeByte b with
    | some (a', buf') => if a' = a then afterAnswering buf' es else none
    | none => none
  | buf, .command _ :: es => afterAnswering buf es
  | buf, .response _ :: es => afterAnswering buf es
  | buf, .reset :: es => afterAnswering buf es

/-- The block's operation has ended, or the buffer does not answer its next transaction (60_exceptions R95). -/
def asksNoMore : Block → Buffer → Bool
  | .idle, _ => true
  | .decoding _ _, .oracle [] _ => true
  | .decoding _ _, .oracle (_ :: _) _ => false
  | .decoding _ _, .refBuf _ => false
  | .encoding _ _, .oracle _ [] => true
  | .encoding _ _, .oracle _ (_ :: _) => false
  | .encoding _ _, .refBuf _ => false

/-- The readable bytes of the reference buffer, `mem[rpos .. wpos - 1]` (20_memory R39). -/
def readable (r : RefBuf) : List Byte :=
  (List.range (r.wpos - r.rpos)).map fun i => Memory.read r.mem (r.rpos + i)

/-! ### The invariant -/

/-- The block's registers are as 10_state R19, 40_decode R62 and 41_encode R71 leave them between transactions:
`IDX` in range, `ACC` below the next group's place, `REM` what is left of a 32-bit value, and not 0 after a byte that
said more follow. -/
def blockLegal : Block → Bool
  | .idle => true
  | .decoding acc idx => decide (idx ≤ 9) && decide (acc.toNat < 2 ^ (7 * idx))
  | .encoding rem idx =>
    decide (idx ≤ 4) && decide (rem.toNat < 2 ^ (32 - 7 * idx)) && (decide (idx = 0) || rem != 0#32)

/-- `rpos <= wpos <= cap` (20_memory R39), and the memory is in canonical form. -/
def bufferLegal : Buffer → Bool
  | .oracle _ _ => true
  | .refBuf r => decide (r.rpos ≤ r.wpos) && decide (r.wpos ≤ r.cap) && Memory.wf r.mem

/-- The invariant of the machine; while an operation is in progress no response stands on the port. -/
def MachineInv (s : State) : Prop :=
  blockLegal s.block = true ∧ bufferLegal s.buffer = true ∧ (s.block ≠ .idle → s.response = none)

/-! ### The event-level machine -/

/-- The spec's conditions between two events (10_state R19), with the moment before the response of 70 R121. -/
inductive Phase
  | idle
  | decoding (acc : Value) (idx : Nat)
  | encoding (rem : Value) (idx : Nat)
  | answering (r : Response)
  deriving DecidableEq, Repr

/-- The condition of a block. -/
def phaseOf : Block → Phase
  | .idle => .idle
  | .decoding acc idx => .decoding acc idx
  | .encoding rem idx => .encoding rem idx

/-- The events the spec allows in each condition and the condition after each (40_decode R60, 41_encode R70,
42_sizeof R80, 60_exceptions R98, R100, 10_state R22), in arithmetic on numbers. -/
def Phase.after : Phase → Event → Option Phase
  | _, .reset => some .idle
  | .idle, .command (.decode _) => some (.decoding 0#32 0)
  | .idle, .command (.encode v) => some (.encoding v 0)
  | .idle, .command (.sizeof v) => some (.answering (.ok (some (BitVec.ofNat 32 (canonicalLength v)))))
  | .decoding _ _, .read (.fail e) => some (.answering (.error (.bufferReadFailure e)))
  | .decoding acc idx, .read (.ok b) =>
    let acc' := if idx < 5 then BitVec.ofNat 32 (acc.toNat + b.toNat % 128 * 2 ^ (7 * idx)) else acc
    if b.toNat < 128 then some (.answering (.ok (some acc')))
    else if idx + 1 = 10 then some (.answering (.error .varintTooLong))
    else some (.decoding acc' (idx + 1))
  | .encoding rem idx, .write b a =>
    if rem.toNat < 128 then
      if b.toNat = rem.toNat then
        match a with
        | .ok => some (.answering (.ok none))
        | .fail e => some (.answering (.error (.bufferWriteFailure e)))
      else none
    else if b.toNat = rem.toNat % 128 + 128 then
      match a with
      | .ok => some (.encoding (BitVec.ofNat 32 (rem.toNat / 128)) (idx + 1))
      | .fail e => some (.answering (.error (.bufferWriteFailure e)))
    else none
  | .answering r, .response r' => if r' = r then some .idle else none
  | _, _ => none

/-- A sequence of events, each allowed where it stands. -/
def Phase.run : Phase → List Event → Option Phase
  | p, [] => some p
  | p, e :: es =>
    match p.after e with
    | none => none
    | some q => Phase.run q es

/-! ### Other failure tokens in place of the buffer's, of the same type or another -/

/-- A read's answer with its token renamed. -/
def renameRead {E F : Type} (f : E → F) : ReadAnswer E → ReadAnswer F
  | .ok b => .ok b
  | .fail e => .fail (f e)

/-- A write's answer with its token renamed. -/
def renameWrite {E F : Type} (f : E → F) : WriteAnswer E → WriteAnswer F
  | .ok => .ok
  | .fail e => .fail (f e)

/-- A response with its token renamed. -/
def renameResponse {E F : Type} (f : E → F) : Response E → Response F
  | .ok v => .ok v
  | .error .varintTooLong => .error .varintTooLong
  | .error (.bufferReadFailure e) => .error (.bufferReadFailure (f e))
  | .error (.bufferWriteFailure e) => .error (.bufferWriteFailure (f e))

/-- An event with its token renamed. -/
def renameEvent {E F : Type} (f : E → F) : Event E → Event F
  | .command i => .command i
  | .read a => .read (renameRead f a)
  | .write b a => .write b (renameWrite f a)
  | .response r => .response (renameResponse f r)
  | .reset => .reset

/-- The reference buffer with its two tokens renamed. -/
def renameRefBuf {E F : Type} (f : E → F) (r : RefBuf E) : RefBuf F where
  mem := r.mem
  rpos := r.rpos
  wpos := r.wpos
  cap := r.cap
  underflow := f r.underflow
  overflow := f r.overflow

/-- The buffer with the tokens of its answers renamed. -/
def renameBuffer {E F : Type} (f : E → F) : Buffer E → Buffer F
  | .oracle reads writes => .oracle (reads.map (renameRead f)) (writes.map (renameWrite f))
  | .refBuf r => .refBuf (renameRefBuf f r)

/-- The state with the buffer's tokens renamed wherever they stand. -/
def renameState {E F : Type} (f : E → F) (s : State E) : State F where
  block := s.block
  response := s.response.map (renameResponse f)
  caller := s.caller
  buffer := renameBuffer f s.buffer
  trace := s.trace.map (renameEvent f)

/-- An outcome with the tokens of its next state renamed; a fault and a refusal hold none. -/
def renameOutcome {E F : Type} (f : E → F) :
    Host.Outcome (State E) Fault Refusal → Host.Outcome (State F) Fault Refusal
  | .next t => .next (renameState f t)
  | .fault r => .fault r
  | .refused r => .refused r

end Sys2Proof.Safety
end

