-- ==== Sys2Proof/Certificates/Slice0/Obligations.lean ====
section
/-! DEFINITION. The statements for the provers. Each docstring names the rules of spec/ it formalises. -/

open Sys2Proof
open Sys2Proof.Machine
open Sys2Proof.Safety

/-! ### Command words -/

/-- 30_encoding R49, R50, R57: the decoder and the encoder of command words are inverse to each other, so no bit of a
command word is dropped, the value DECODE ignores included. -/
def Obligations.CommandWordsRoundTrip : Prop :=
  (∀ i : Instr, decodeCommand (encodeCommand i) = .ok i) ∧
  (∀ (w : CommandWord) (i : Instr), decodeCommand w = .ok i → encodeCommand i = w)

/-- 30_encoding R49, R50, R53: the number `cmd_op * 2^32 + cmd_value` stands for DECODE, ENCODE, SIZEOF of that value
for `cmd_op` 0, 1, 2 and is rejected for 3, also when the word is read as a row of the opcode table. -/
def Obligations.CommandWordFieldsAreReadInPlace : Prop :=
  ∀ v : Value,
    decodeCommand (BitVec.ofNat 34 v.toNat) = .ok (.decode v) ∧
    decodeCommand (BitVec.ofNat 34 (2 ^ 32 + v.toNat)) = .ok (.encode v) ∧
    decodeCommand (BitVec.ofNat 34 (2 * 2 ^ 32 + v.toNat)) = .ok (.sizeof v) ∧
    decodeCommand (BitVec.ofNat 34 (3 * 2 ^ 32 + v.toNat)) = .error .reservedCode ∧
    ∀ nbits : Nat,
      decodeTableWord nbits v.toNat = some (.decode v) ∧
      decodeTableWord nbits (2 ^ 32 + v.toNat) = some (.encode v) ∧
      decodeTableWord nbits (2 * 2 ^ 32 + v.toNat) = some (.sizeof v) ∧
      decodeTableWord nbits (3 * 2 ^ 32 + v.toNat) = none

/-- 30_encoding R58 and 95_test_vectors section 6: command words the spec writes out. -/
def Obligations.WrittenOutCommandWordsDecode : Prop :=
  decodeCommand 0x000000000#34 = .ok (.decode 0#32) ∧
  decodeCommand 0x10000012C#34 = .ok (.encode 300#32) ∧
  decodeCommand 0x20000012C#34 = .ok (.sizeof 300#32) ∧
  decodeCommand 0x3FFFFFFFF#34 = .error .reservedCode

/-! ### The step -/

/-- An idle block whose caller drives a well-formed command word runs the decoded command; the word is no longer
among the caller's inputs to come (70_reset_and_hazards R116). -/
def Obligations.StepRunsDecodedCommand : Prop :=
  ∀ (s : State) (w : CommandWord) (rest : List CallerInput) (i : Instr),
    s.block = .idle → s.caller = .command w :: rest → decodeCommand w = .ok i → i.wellFormed = true →
    step s = exec i { s with caller := rest }

/-- `withFetchWord` places a command where the next step takes it: whatever the state, the very next step runs the
instruction the opcode table's word stands for, in the state with an idle block. How a program comes to run is the
model's choice (notes/assumptions/13.md). -/
def Obligations.FetchedWordIsRunByTheNextStep : Prop :=
  ∀ (s : State) (nbits w : Nat) (i : Instr), decodeTableWord nbits w = some i →
    step (s.withFetchWord nbits w) = exec i { s with block := .idle }

/-- 30_encoding R53: a command word with `cmd_op = 0b11` is refused. -/
def Obligations.StepRefusesReservedCode : Prop :=
  ∀ (s : State) (v : Value) (rest : List CallerInput),
    s.block = .idle → s.caller = .command (3#2 ++ v) :: rest → step s = .refused .reservedCommand

/-- 70_reset_and_hazards R116 and 42_sizeof R86: in a busy block a command event has no step, whichever command it
is, and a step of a busy block accepts no command the caller drives: the caller's inputs stay as they are and no
command event is recorded. -/
def Obligations.BusyBlockAcceptsNoCommand : Prop :=
  ∀ s : State, s.block ≠ .idle →
    (∀ i : Instr, exec i s = .fault .commandWhileBusy) ∧
    (∀ t : State, (∀ rest, s.caller ≠ .reset :: rest) → step s = .next t →
      t.caller = s.caller ∧ ∃ es, t.trace = s.trace ++ es ∧ es.any isCommand = false)

/-- Where a step has no next state: an idle block without a command, a busy block whose buffer does not answer its
next transaction, and a reserved command word of an idle block; nowhere else, and never for a command while busy. The
names of the stops are the model's (notes/assumptions/6.md). -/
def Obligations.StepStopsOnlyWhereNoEventCanHappen : Prop :=
  ∀ s : State,
    (step s = .fault .noCommand ↔ s.block = .idle ∧ s.caller = []) ∧
    (step s = .fault .bufferDoesNotAnswer ↔
      (∀ rest, s.caller ≠ .reset :: rest) ∧
      ((∃ acc idx writes, s.block = .decoding acc idx ∧ s.buffer = .oracle [] writes) ∨
       (∃ rem idx reads, s.block = .encoding rem idx ∧ s.buffer = .oracle reads []))) ∧
    step s ≠ .fault .commandWhileBusy ∧
    (∀ r : Refusal, step s = .refused r ↔
      r = .reservedCommand ∧ s.block = .idle ∧ ∃ w rest, s.caller = .command w :: rest ∧ 3 * 2 ^ 32 ≤ w.toNat)

/-! ### DECODE -/

/-- 30_encoding R43 and 40_decode R63: over an accepted string DECODE answers `OK` with its value, has read exactly
its bytes, and leaves what follows unread; nothing else of the state changes. -/
def Obligations.DecodeReturnsAssembledValue : Prop :=
  ∀ (s : State) (v : Value) (bs : List Byte) (reads : List ReadAnswer) (writes : List WriteAnswer),
    s.block = .idle → s.buffer = .oracle (bs.map .ok ++ reads) writes → accepted bs = true →
    exec (.decode v) s =
      .next (ended s (.ok (some (assembled bs))) (.oracle reads writes)
        (.command (.decode v) :: readEvents bs ++ [.response (.ok (some (assembled bs)))]))

/-- 30_encoding R44: where each bit of the bytes consumed goes. Groups 0 to 3 fill the result's bits `7i+6 : 7i`, the
low four bits of byte 4 fill bits 31:28, and what no byte fills is 0; so no other bit of the bytes matters. -/
def Obligations.DecodePlacesEachGroup : Prop :=
  ∀ (s : State) (v : Value) (bs : List Byte) (reads : List ReadAnswer) (writes : List WriteAnswer),
    s.block = .idle → s.buffer = .oracle (bs.map .ok ++ reads) writes → accepted bs = true →
    ∃ (t : State) (r : Value), exec (.decode v) s = .next t ∧ t.response = some (.ok (some r)) ∧
      (∀ i, i < 4 → r.extractLsb' (7 * i) 7 = ((bs[i]?).getD 0#8).extractLsb' 0 7) ∧
      r.extractLsb' 28 4 = ((bs[4]?).getD 0#8).extractLsb' 0 4

/-- 40_decode R65 and 60_exceptions R91: ten bytes in a row with the continuation bit set end DECODE with
`VarintTooLong`; ten reads were issued and what follows is left unread. -/
def Obligations.DecodeFailsAfterTenContinuationBytes : Prop :=
  ∀ (s : State) (v : Value) (bs : List Byte) (reads : List ReadAnswer) (writes : List WriteAnswer),
    s.block = .idle → s.buffer = .oracle (bs.map .ok ++ reads) writes →
    bs.length = 10 → bs.all continues = true →
    exec (.decode v) s =
      .next (ended s (.error .varintTooLong) (.oracle reads writes)
        (.command (.decode v) :: readEvents bs ++ [.response (.error .varintTooLong)]))

/-- 40_decode R68 and 60_exceptions R92: a read that fails, at the first to the tenth read, ends DECODE at once with
the buffer's token unmodified; the bytes before it stay consumed and no further read is issued. -/
def Obligations.DecodeHandsOnReadFailure : Prop :=
  ∀ (s : State) (v : Value) (bs : List Byte) (e : FailureToken) (reads : List ReadAnswer) (writes : List WriteAnswer),
    s.block = .idle → s.buffer = .oracle (bs.map .ok ++ .fail e :: reads) writes →
    bs.length ≤ 9 → bs.all continues = true →
    exec (.decode v) s =
      .next (ended s (.error (.bufferReadFailure e)) (.oracle reads writes)
        (.command (.decode v) :: readEvents bs ++
          [.read (.fail e), .response (.error (.bufferReadFailure e))]))

/-- Where the buffer does not answer (60_exceptions R95), DECODE waits with `ACC` holding the value of the bytes so far
and `IDX` their number (10_state R11, R13). That one step of the model goes so far is the model's choice
(notes/assumptions/5.md). -/
def Obligations.DecodeWaitsForSilentBuffer : Prop :=
  ∀ (s : State) (v : Value) (bs : List Byte) (writes : List WriteAnswer),
    s.block = .idle → s.buffer = .oracle (bs.map .ok) writes → bs.length ≤ 9 → bs.all continues = true →
    exec (.decode v) s =
      .next (waiting s (.decoding (assembled bs) bs.length) (.oracle [] writes)
        (.command (.decode v) :: readEvents bs))

/-- 30_encoding R46, R47, R54 and 40_decode R67: DECODE ends in no other way. Every answer the buffer can give leads
to one of the table's rows (or to waiting for a buffer that does not answer), and the response tells which: `OK` only
over an accepted string and with its value, `VarintTooLong` only after ten continuation bytes, a read failure only with
the token of a failed read after at most nine continuation bytes. That the one step of a DECODE that waits has absorbed
every answer there was is the model's choice (notes/assumptions/5.md). -/
def Obligations.DecodeEndsOnlyAsItsBytesSay : Prop :=
  ∀ (s : State) (v : Value) (reads : List ReadAnswer) (writes : List WriteAnswer),
    s.block = .idle → s.buffer = .oracle reads writes →
    ∃ t : State, exec (.decode v) s = .next t ∧ ∃ (bs : List Byte) (rest : List ReadAnswer),
      t.caller = s.caller ∧
      match t.response with
      | some (.ok r) =>
        t.block = .idle ∧ t.buffer = .oracle rest writes ∧
        reads = bs.map .ok ++ rest ∧ accepted bs = true ∧ r = some (assembled bs)
      | some (.error .varintTooLong) =>
        t.block = .idle ∧ t.buffer = .oracle rest writes ∧
        reads = bs.map .ok ++ rest ∧ bs.length = 10 ∧ bs.all continues = true
      | some (.error (.bufferReadFailure e)) =>
        t.block = .idle ∧ t.buffer = .oracle rest writes ∧
        reads = bs.map .ok ++ .fail e :: rest ∧ bs.length ≤ 9 ∧ bs.all continues = true
      | some (.error (.bufferWriteFailure _)) => False
      | none =>
        t.block = .decoding (assembled bs) bs.length ∧ t.buffer = .oracle [] writes ∧
        reads = bs.map .ok ∧ bs.length ≤ 9 ∧ bs.all continues = true

/-- DECODE over the reference buffer of 20_memory R39, the spec's own choice: up to nine continuation bytes (none, over
an empty buffer) and nothing more give the buffer's `underflow` at the read after them (60_exceptions R92). The tenth
read decides (60_exceptions R97): after nine continuation bytes a tenth gives `VarintTooLong` whether more bytes follow
or not, and those stay unread; a terminator gives `OK`. -/
def Obligations.TenthReadDecidesOverRefBuf : Prop :=
  ∀ (s : State) (v : Value) (r : RefBuf) (bs rest : List Byte) (b : Byte),
    s.block = .idle → s.buffer = .refBuf r → r.rpos ≤ r.wpos → bs.length ≤ 9 → bs.all continues = true →
    (readable r = bs →
      exec (.decode v) s =
        .next (ended s (.error (.bufferReadFailure r.underflow)) (.refBuf { r with rpos := r.wpos })
          (.command (.decode v) :: readEvents bs ++
            [.read (.fail r.underflow), .response (.error (.bufferReadFailure r.underflow))]))) ∧
    (readable r = bs ++ b :: rest → bs.length = 9 → continues b = true →
      exec (.decode v) s =
        .next (ended s (.error .varintTooLong) (.refBuf { r with rpos := r.rpos + 10 })
          (.command (.decode v) :: readEvents (bs ++ [b]) ++ [.response (.error .varintTooLong)]))) ∧
    (readable r = bs ++ b :: rest → bs.length = 9 → continues b = false →
      exec (.decode v) s =
        .next (ended s (.ok (some (assembled (bs ++ [b])))) (.refBuf { r with rpos := r.rpos + 10 })
          (.command (.decode v) :: readEvents (bs ++ [b]) ++
            [.response (.ok (some (assembled (bs ++ [b]))))])))

/-- DECODE over the reference buffer (20_memory R39) reads its readable bytes in order: it answers the value of the
accepted string at the read position, moves that position past it, and changes no stored byte. -/
def Obligations.DecodeConsumesFromRefBuf : Prop :=
  ∀ (s : State) (v : Value) (r : RefBuf) (bs rest : List Byte),
    s.block = .idle → s.buffer = .refBuf r → readable r = bs ++ rest → accepted bs = true →
    exec (.decode v) s =
      .next (ended s (.ok (some (assembled bs))) (.refBuf { r with rpos := r.rpos + bs.length })
        (.command (.decode v) :: readEvents bs ++ [.response (.ok (some (assembled bs)))]))

/-- 30_encoding R51: DECODE ignores `cmd_value`: two DECODEs that differ in it alone do the same. -/
def Obligations.DecodeIgnoresCommandValue : Prop :=
  ∀ (s t : State) (v w : Value), exec (.decode v) s = .next t →
    ∃ es, t.trace = s.trace ++ .command (.decode v) :: es ∧
      exec (.decode w) s = .next { t with trace := s.trace ++ .command (.decode w) :: es }

/-- The frame of DECODE, whatever the buffer: the caller's inputs stay, the events are its command, reads, and its
response, no stored byte changes, and the buffer's side for writes stays as it was (10_state R17). -/
def Obligations.DecodeFrame : Prop :=
  ∀ (s t : State) (v : Value), exec (.decode v) s = .next t →
    t.caller = s.caller ∧
    (∃ es, t.trace = s.trace ++ .command (.decode v) :: es ∧ ∀ e ∈ es, isRead e = true ∨ isResponse e = true) ∧
    (∀ a, Memory.read t.buffer.memory a = Memory.read s.buffer.memory a) ∧
    (∀ reads writes, s.buffer = .oracle reads writes → ∃ reads', t.buffer = .oracle reads' writes) ∧
    (∀ r, s.buffer = .refBuf r → ∃ n, n ≤ 10 ∧ t.buffer = .refBuf { r with rpos := r.rpos + n })

/-! ### ENCODE -/

/-- 41_encode R75 and 30_encoding R41: with every write answered `Ok`, ENCODE writes the bytes of the layout formula in
order and answers `OK` without a result; nothing else of the state changes. -/
def Obligations.EncodeWritesCanonicalEncoding : Prop :=
  ∀ (s : State) (v : Value) (reads : List ReadAnswer) (writes : List WriteAnswer),
    s.block = .idle → s.buffer = .oracle reads (List.replicate (canonicalLength v) .ok ++ writes) →
    exec (.encode v) s =
      .next (ended s (.ok none) (.oracle reads writes)
        (.command (.encode v) :: writeEvents (canonicalEncoding v) ++ [.response (.ok none)]))

/-- 41_encode R77 and 60_exceptions R93: a write that fails, at any of the writes, ends ENCODE at once with the buffer's
token unmodified; the bytes before it stay written, a partial encoding whose bytes, the last one too, have the
continuation bit set, and no further write is issued. -/
def Obligations.EncodeHandsOnWriteFailure : Prop :=
  ∀ (s : State) (v : Value) (k : Nat) (e : FailureToken) (reads : List ReadAnswer) (writes : List WriteAnswer),
    s.block = .idle → k < canonicalLength v →
    s.buffer = .oracle reads (List.replicate k .ok ++ .fail e :: writes) →
    exec (.encode v) s =
      .next (ended s (.error (.bufferWriteFailure e)) (.oracle reads writes)
        (.command (.encode v) :: writeEvents ((canonicalEncoding v).take k) ++
          [.write (canonicalByte v k) (.fail e), .response (.error (.bufferWriteFailure e))])) ∧
    ∀ b ∈ (canonicalEncoding v).take k, continues b = true

/-- Where the buffer does not answer (60_exceptions R95), ENCODE waits with `REM = lsr32(v, 7 * IDX)`, as 41_encode R71
says of each pass, and `IDX` the number of bytes written. That one step of the model goes so far is the model's choice
(notes/assumptions/5.md). -/
def Obligations.EncodeWaitsForSilentBuffer : Prop :=
  ∀ (s : State) (v : Value) (k : Nat) (reads : List ReadAnswer),
    s.block = .idle → k < canonicalLength v → s.buffer = .oracle reads (List.replicate k .ok) →
    exec (.encode v) s =
      .next (waiting s (.encoding (BitVec.ofNat 32 (v.toNat / 2 ^ (7 * k))) k) (.oracle reads [])
        (.command (.encode v) :: writeEvents ((canonicalEncoding v).take k)))

/-- 41_encode R79: whatever the buffer, the bytes ENCODE offers are those of the value, in order; the answers only cut
the sequence short at the first failure. Over an oracle they are the first of its answers to writes, and the rest are
left. An ENCODE that waits faces a buffer with no answer to a write left; that its one step goes so far is the model's
choice (notes/assumptions/5.md). -/
def Obligations.EncodeOffersPrefixOfItsBytes : Prop :=
  ∀ (s : State) (v : Value), s.block = .idle →
    ∃ (t : State) (answers : List WriteAnswer) (last : List Event), exec (.encode v) s = .next t ∧
      answers.length ≤ canonicalLength v ∧ (∀ a ∈ answers.dropLast, a = .ok) ∧ t.caller = s.caller ∧
      (∀ reads writes, s.buffer = .oracle reads writes →
        ∃ rest, writes = answers ++ rest ∧ t.buffer = .oracle reads rest) ∧
      t.trace = s.trace ++ .command (.encode v) ::
        ((List.zipWith Event.write (canonicalEncoding v) answers) ++ last) ∧
      match t.response with
      | some (.ok r) =>
        r = none ∧ t.block = .idle ∧ last = [.response (.ok none)] ∧
        answers = List.replicate (canonicalLength v) .ok
      | some (.error e) =>
        t.block = .idle ∧ last = [.response (.error e)] ∧
        ∃ f, e = .bufferWriteFailure f ∧ answers.getLast? = some (.fail f)
      | none =>
        last = [] ∧ answers.length < canonicalLength v ∧ (∀ a ∈ answers, a = .ok) ∧
        t.block = .encoding (BitVec.ofNat 32 (v.toNat / 2 ^ (7 * answers.length))) answers.length ∧
        ∃ reads, t.buffer = .oracle reads []

/-- ENCODE into the reference buffer (20_memory R39) with room for the encoding: it stores the bytes of the layout
formula at the write position, moves that position past them, and leaves every other byte, the read position and the
capacity alone. -/
def Obligations.EncodeStoresIntoRefBuf : Prop :=
  ∀ (s : State) (v : Value) (r : RefBuf),
    s.block = .idle → s.buffer = .refBuf r → Memory.wf r.mem = true → r.wpos + canonicalLength v ≤ r.cap →
    ∃ mem : Memory,
      exec (.encode v) s =
        .next (ended s (.ok none) (.refBuf { r with mem := mem, wpos := r.wpos + canonicalLength v })
          (.command (.encode v) :: writeEvents (canonicalEncoding v) ++ [.response (.ok none)])) ∧
      (∀ i, i < canonicalLength v → Memory.read mem (r.wpos + i) = canonicalByte v i) ∧
      (∀ a, a < r.wpos ∨ r.wpos + canonicalLength v ≤ a → Memory.read mem a = Memory.read r.mem a)

/-- 41_encode R77 over the reference buffer (20_memory R39): with room for `k` bytes, fewer than the encoding has,
ENCODE stores the first `k`, each with its continuation bit set, and answers the buffer's overflow. -/
def Obligations.EncodeOverflowLeavesPartialEncoding : Prop :=
  ∀ (s : State) (v : Value) (r : RefBuf) (k : Nat),
    s.block = .idle → s.buffer = .refBuf r → Memory.wf r.mem = true → r.wpos + k = r.cap → k < canonicalLength v →
    ∃ mem : Memory,
      exec (.encode v) s =
        .next (ended s (.error (.bufferWriteFailure r.overflow)) (.refBuf { r with mem := mem, wpos := r.cap })
          (.command (.encode v) :: writeEvents ((canonicalEncoding v).take k) ++
            [.write (canonicalByte v k) (.fail r.overflow), .response (.error (.bufferWriteFailure r.overflow))])) ∧
      (∀ i, i < k → Memory.read mem (r.wpos + i) = canonicalByte v i ∧ continues (canonicalByte v i) = true) ∧
      (∀ a, a < r.wpos ∨ r.cap ≤ a → Memory.read mem a = Memory.read r.mem a)

/-- The frame of ENCODE, whatever the buffer: the caller's inputs stay, the events are its command, writes, and its
response, every stored byte outside the write position up to its new place reads as before, and the buffer's side for
reads stays as it was (10_state R17). -/
def Obligations.EncodeFrame : Prop :=
  ∀ (s t : State) (v : Value), exec (.encode v) s = .next t →
    t.caller = s.caller ∧
    (∃ es, t.trace = s.trace ++ .command (.encode v) :: es ∧ ∀ e ∈ es, isWrite e = true ∨ isResponse e = true) ∧
    (∀ reads writes, s.buffer = .oracle reads writes → ∃ writes', t.buffer = .oracle reads writes') ∧
    (∀ r, s.buffer = .refBuf r →
      ∃ mem n, n ≤ 5 ∧ t.buffer = .refBuf { r with mem := mem, wpos := r.wpos + n } ∧
        ∀ a, a < r.wpos ∨ r.wpos + n ≤ a → Memory.read mem a = Memory.read r.mem a)

/-! ### SIZEOF -/

/-- 42_sizeof R80, R81, R82: SIZEOF answers 1 to 5 by the thresholds, compared as unsigned numbers, the threshold itself
belonging to the larger size; it issues no transaction and nothing else of the state changes. -/
def Obligations.SizeofAnswersByThresholds : Prop :=
  ∀ (s : State) (v : Value) (n : Nat), s.block = .idle →
    ((n = 1 ∧ v.toNat < 128) ∨ (n = 2 ∧ 128 ≤ v.toNat ∧ v.toNat < 16384) ∨
     (n = 3 ∧ 16384 ≤ v.toNat ∧ v.toNat < 2097152) ∨ (n = 4 ∧ 2097152 ≤ v.toNat ∧ v.toNat < 268435456) ∨
     (n = 5 ∧ 268435456 ≤ v.toNat)) →
    exec (.sizeof v) s =
      .next (ended s (.ok (some (BitVec.ofNat 32 n))) s.buffer
        [.command (.sizeof v), .response (.ok (some (BitVec.ofNat 32 n)))])

/-- 42_sizeof R83, the central invariant of the component: what SIZEOF answers is the number of writes a successful
ENCODE of the same value issues, whatever the buffers and whenever each is issued. -/
def Obligations.SizeofEqualsBytesEncodeWrites : Prop :=
  ∀ (s t u : State) (v : Value),
    exec (.encode v) s = .next t → t.response = some (.ok none) → u.block = .idle →
    ∃ u' : State, exec (.sizeof v) u = .next u' ∧
      u'.response = some (.ok (some (BitVec.ofNat 32 ((eventsSince s t).countP isWrite))))

/-! ### The operations together -/

/-- 41_encode R76: with every write answered `Ok`, and a later DECODE given the bytes that were written, in order, the
DECODE answers the value, issues exactly `SIZEOF` of it reads, and leaves what follows unread. -/
def Obligations.RoundTripOverFaithfulAnswers : Prop :=
  ∀ (s t u : State) (v w : Value) (bs : List Byte) (reads : List ReadAnswer) (writes : List WriteAnswer),
    exec (.encode v) s = .next t →
    eventsSince s t = .command (.encode v) :: writeEvents bs ++ [.response (.ok none)] →
    u.block = .idle → u.buffer = .oracle (bs.map .ok ++ reads) writes →
    exec (.decode w) u =
      .next (ended u (.ok (some v)) (.oracle reads writes)
        (.command (.decode w) :: readEvents bs ++ [.response (.ok (some v))])) ∧
    ∃ u' : State, exec (.sizeof v) u = .next u' ∧
      u'.response = some (.ok (some (BitVec.ofNat 32 (readEvents bs).length)))

/-- 41_encode R76 through the reference buffer, in two steps of the machine from command words: with the read and write
positions equal and room for the encoding, ENCODE and then DECODE give the value back and leave the buffer empty
again. That each operation is one step, and that a program is the list of what the caller issues, are the model's
choices (notes/assumptions/5.md, notes/assumptions/13.md). -/
def Obligations.RoundTripThroughRefBuf : Prop :=
  ∀ (s : State) (v w : Value) (r : RefBuf) (rest : List CallerInput),
    s.block = .idle → s.buffer = .refBuf r → Memory.wf r.mem = true → r.rpos = r.wpos →
    r.wpos + canonicalLength v ≤ r.cap →
    s.caller = .command (encodeCommand (.encode v)) :: .command (encodeCommand (.decode w)) :: rest →
    ∃ (t : State) (mem : Memory), Host.Core.run core 2 s = .next t ∧
      t.block = .idle ∧ t.response = some (.ok (some v)) ∧ t.caller = rest ∧
      t.buffer = .refBuf { r with mem := mem, rpos := r.rpos + canonicalLength v, wpos := r.wpos + canonicalLength v }

/-- Encodings back to back parse one way only (30_encoding R46, R47): one DECODE for each of them answers the values in
order, and what follows the last stays unread. That each DECODE is one step, and that a program is the list of what the
caller issues, are the model's choices (notes/assumptions/5.md, notes/assumptions/13.md). -/
def Obligations.StreamOfEncodingsDecodesInOrder : Prop :=
  ∀ (s : State) (vs : List Value) (reads : List ReadAnswer) (writes : List WriteAnswer),
    s.block = .idle → s.caller = vs.map (fun v => .command (encodeCommand (.decode v))) →
    s.buffer = .oracle ((vs.flatMap canonicalEncoding).map .ok ++ reads) writes →
    ∃ t : State, Host.Core.run core vs.length s = .next t ∧
      t.block = .idle ∧ t.buffer = .oracle reads writes ∧
      (eventsSince s t).filterMap responseOf = vs.map (fun v => .ok (some v))

/-- 41_encode R79, last sentence: the encoder is injective: two successful ENCODEs that wrote the same bytes had the
same value. -/
def Obligations.EncodeIsInjective : Prop :=
  ∀ (s s' t t' : State) (v v' : Value) (bs : List Byte),
    exec (.encode v) s = .next t → exec (.encode v') s' = .next t' →
    eventsSince s t = .command (.encode v) :: writeEvents bs ++ [.response (.ok none)] →
    eventsSince s' t' = .command (.encode v') :: writeEvents bs ++ [.response (.ok none)] →
    v = v'

/-- The canonical encoding is the shortest (30_encoding R42, 70_reset_and_hazards R119): a DECODE that answers a value
has read at least as many bytes as SIZEOF of that value says, and over-long and wide encodings read more. -/
def Obligations.DecodeReadsAtLeastSizeof : Prop :=
  ∀ (s t : State) (v r : Value),
    exec (.decode v) s = .next t → t.response = some (.ok (some r)) →
    canonicalLength r ≤ (eventsSince s t).countP isRead ∧ (eventsSince s t).countP isRead ≤ 10

/-- 20_memory R23 and 70_reset_and_hazards R121: DECODE uses the buffer by reads only, 1 to 10 of them when it ends;
ENCODE by writes only, 1 to 5 when it ends; SIZEOF not at all. -/
def Obligations.TransactionsOfEachOperation : Prop :=
  ∀ (i : Instr) (s t : State), exec i s = .next t → t.block = .idle →
    match i with
    | .decode _ =>
      (eventsSince s t).countP isWrite = 0 ∧
      1 ≤ (eventsSince s t).countP isRead ∧ (eventsSince s t).countP isRead ≤ 10
    | .encode _ =>
      (eventsSince s t).countP isRead = 0 ∧
      1 ≤ (eventsSince s t).countP isWrite ∧ (eventsSince s t).countP isWrite ≤ 5
    | .sizeof _ =>
      (eventsSince s t).countP isRead = 0 ∧ (eventsSince s t).countP isWrite = 0 ∧ t.buffer = s.buffer

/-- 70_reset_and_hazards R123: every operation ends if the buffer answers every transaction: the reference buffer
always does, and the oracle does with ten answers to reads for a DECODE and five to writes for an ENCODE; a SIZEOF asks
for none and ends over every buffer (R114). -/
def Obligations.EveryOperationEndsIfTheBufferAnswers : Prop :=
  ∀ (i : Instr) (s : State), s.block = .idle →
    (match i with
     | .decode _ =>
       (∃ r, s.buffer = .refBuf r) ∨ ∃ reads writes, s.buffer = .oracle reads writes ∧ 10 ≤ reads.length
     | .encode _ =>
       (∃ r, s.buffer = .refBuf r) ∨ ∃ reads writes, s.buffer = .oracle reads writes ∧ 5 ≤ writes.length
     | .sizeof _ => True) →
    ∃ (t : State) (r : Response), exec i s = .next t ∧ t.block = .idle ∧ t.response = some r

/-- 60_exceptions R96, R100: every operation that ends gives exactly one response, its last event, and it stands on the
response port; one that waits has given none. -/
def Obligations.OneResponseEndsEachOperation : Prop :=
  ∀ (i : Instr) (s t : State), exec i s = .next t →
    ∃ es, t.trace = s.trace ++ .command i :: es ∧ es.any isCommand = false ∧
      match t.block with
      | .idle => ∃ r es', es = es' ++ [.response r] ∧ es'.any isResponse = false ∧ t.response = some r
      | .decoding _ _ => es.any isResponse = false ∧ t.response = none
      | .encoding _ _ => es.any isResponse = false ∧ t.response = none

/-- 60_exceptions R90: the status code of each way an operation can end, and the token it carries, whatever the type of
tokens. -/
def Obligations.ResponseCodesOnThePort : Prop :=
  ∀ BufErr : Type,
    (∀ r, rspStatus (.ok r : Response BufErr) = 0#2 ∧ rspErr (.ok r : Response BufErr) = none) ∧
    (∀ v, rspResult (.ok (some v) : Response BufErr) = v) ∧
    rspStatus (.error .varintTooLong : Response BufErr) = 1#2 ∧
    rspErr (.error .varintTooLong : Response BufErr) = none ∧
    (∀ e : BufErr, rspStatus (.error (.bufferReadFailure e)) = 2#2 ∧ rspErr (.error (.bufferReadFailure e)) = some e) ∧
    (∀ e : BufErr, rspStatus (.error (.bufferWriteFailure e)) = 3#2 ∧ rspErr (.error (.bufferWriteFailure e)) = some e)

/-- Which statuses each operation can produce (30_encoding R52): DECODE 0, 1, 2; ENCODE 0, 3; SIZEOF 0 only. -/
def Obligations.StatusesOfEachOperation : Prop :=
  ∀ (i : Instr) (s t : State) (r : Response), exec i s = .next t → t.response = some r →
    match i with
    | .decode _ => rspStatus r ≠ 3#2
    | .encode _ => rspStatus r = 0#2 ∨ rspStatus r = 3#2
    | .sizeof _ => rspStatus r = 0#2

/-- 10_state R10 and 60_exceptions R101: an operation is a function of its command and of the answers the buffer gives
during it: begun in an idle state, it issues transactions that the buffer answers and then asks no more; begun in any
other idle state whose buffer gives those answers to those transactions (and then no more, where the operation waits),
whatever that buffer is and holds besides and whatever went before (an error, a success, nothing), it does the same.
That the one step goes as far as the buffer answers, so that it ends or waits at a buffer that is silent, is the
model's choice (notes/assumptions/5.md). -/
def Obligations.OperationsKeepNothingFromBefore : Prop :=
  ∀ (i : Instr) (s : State), s.block = .idle →
    ∃ (t : State) (es : List Event), exec i s = .next t ∧ t.trace = s.trace ++ es ∧ t.caller = s.caller ∧
      afterAnswering s.buffer es = some t.buffer ∧ asksNoMore t.block t.buffer = true ∧
      ∀ (s' : State) (buf : Buffer), s'.block = .idle → afterAnswering s'.buffer es = some buf →
        asksNoMore t.block buf = true →
        exec i s' = .next { t with caller := s'.caller, buffer := buf, trace := s'.trace ++ es }

/-- 60_exceptions R92, R93 and 00_scope R6: the block does not interpret the buffer's failure token, and the type
`BufErr` of the tokens is an argument of the model: at every two types of tokens, and for every way to rename those of
one as those of the other, every operation and every step goes as before with the tokens renamed, whatever the buffer
(its faults and refusals too). `exec` and `step` are the operations and the step at the one type the host's interface
asks for (notes/assumptions/8.md). -/
def Obligations.FailureTokensAreNotInterpreted : Prop :=
  (∀ (E F : Type) (f : E → F) (s : State E),
    (∀ i : Instr, execAt i (renameState f s) = renameOutcome f (execAt i s)) ∧
    stepAt (renameState f s) = renameOutcome f (stepAt s)) ∧
  (∀ s : State, (∀ i : Instr, execAt i s = exec i s) ∧ stepAt s = step s)

/-- 00_scope R6, 93 U6: `BufErr` is a parameter, and what `exec` and `step` do at `FailureToken` is what the machine
does at every type that has a token: every state at such a type is a state at `FailureToken` with its tokens renamed,
and its operations and its step are those of that state, so renamed. (A state at a type without tokens is covered by
renaming out of it, in `FailureTokensAreNotInterpreted`.) The choice of `FailureToken` is the model's
(notes/assumptions/8.md). -/
def Obligations.EveryTokenTypeIsCovered : Prop :=
  ∀ (E : Type) (s : State E), Nonempty E →
    ∃ (f : FailureToken → E) (s' : State), renameState f s' = s ∧
      (∀ i : Instr, execAt i s = renameOutcome f (exec i s')) ∧ stepAt s = renameOutcome f (step s')

/-- Late answers change nothing (10_state R19, 20_memory R35): an operation begun with the first part of the buffer's
answers, and continued by a step once the rest is there, ends as the operation does with all of them there at once.
That a step runs as far as the answers go is the model's choice (notes/assumptions/5.md); this says nothing hangs on
it. -/
def Obligations.LateAnswersChangeNothing : Prop :=
  ∀ (i : Instr) (s t : State) (reads reads' more : List ReadAnswer) (writes writes' more' : List WriteAnswer),
    s.block = .idle → (∀ rest, s.caller ≠ .reset :: rest) →
    exec i { s with buffer := .oracle reads writes } = .next t → t.buffer = .oracle reads' writes' →
    let full : State := { s with buffer := .oracle (reads ++ more) (writes ++ more') }
    let later : State := { t with buffer := .oracle (reads' ++ more) (writes' ++ more') }
    (t.block = .idle → exec i full = .next later) ∧
    (t.block ≠ .idle → exec i full = .next later ∧ step later = .fault .bufferDoesNotAnswer ∨
      exec i full = step later)

/-- The model refines the spec's event-level machine (10_state R19, 92 D1): from a state that meets the invariant, the
events of every step are events the spec allows one after another, and they lead to the condition the step leaves. -/
def Obligations.StepRefinesEventLevelMachine : Prop :=
  ∀ s t : State, MachineInv s → step s = .next t →
    ∃ es, t.trace = s.trace ++ es ∧ (phaseOf s.block).run es = some (phaseOf t.block)

/-! ### Reset and the invariant -/

/-- 10_state R20, R22 and 70_reset_and_hazards R110: reset, whatever the block is doing, makes it idle with no
response pending, issues no transaction, leaves the buffer as it was, and produces no response for an operation it cuts
off. Reset is the spec's own decision (notes/assumptions/10.md); where in a run it may fall inside an operation is the
model's (notes/assumptions/18.md). -/
def Obligations.ResetAbandonsWithoutRollback : Prop :=
  ∀ (s : State) (rest : List CallerInput), s.caller = .reset :: rest →
    step s = .next { s with block := .idle, response := none, caller := rest, trace := s.trace ++ [.reset] }

/-- 10_state R20, R21: after reset the block is idle, no response exists, and no transaction has been issued. -/
def Obligations.ResetStateIsIdle : Prop :=
  State.reset.block = .idle ∧ State.reset.response = none ∧
  State.reset.trace.any isRead = false ∧ State.reset.trace.any isWrite = false

/-- Every step keeps the invariant: `IDX` in range, `ACC` and `REM` within the places 40_decode R62 and 41_encode R71
give them, no response on the port while busy, and the reference buffer's positions in order and its memory
canonical (20_memory R39). -/
def Obligations.StepKeepsInvariant : Prop :=
  ∀ s t : State, MachineInv s → step s = .next t → MachineInv t

/-- The invariant holds after reset. -/
def Obligations.ResetMeetsInvariant : Prop := MachineInv State.reset
end

