-- ==== Sys2Proof/Laws/Loop.lean ====
section
/-! SUPPORT. The loop: its equations, and the two ways to reason about it. -/

namespace Sys2Proof.Machine

variable {BufErr : Type}

@[simp] theorem iterate_zero (pass : State BufErr → Option (State BufErr)) (s : State BufErr) : iterate pass 0 s = s := rfl

theorem iterate_of_none {pass : State BufErr → Option (State BufErr)} {s : State BufErr} (h : pass s = none) (n : Nat) :
    iterate pass n s = s := by
  cases n <;> simp [iterate, h]

theorem iterate_of_some {pass : State BufErr → Option (State BufErr)} {s t : State BufErr} (h : pass s = some t) (n : Nat) :
    iterate pass (n + 1) s = iterate pass n t := by
  simp [iterate, h]

/-- What every pass keeps, the loop keeps. -/
theorem iterate_induction {pass : State BufErr → Option (State BufErr)} {P : State BufErr → Prop}
    (hpass : ∀ s t, P s → pass s = some t → P t) (n : Nat) {s : State BufErr} (hs : P s) : P (iterate pass n s) := by
  induction n generalizing s with
  | zero => exact hs
  | succ n ih =>
    cases h : pass s with
    | none => rwa [iterate_of_none h]
    | some t => rw [iterate_of_some h]; exact ih (hpass s t hs h)

/-- A loop of which every pass lowers a bound, begun within its fuel, ends where no further pass is possible. -/
theorem iterate_exhausts {pass : State BufErr → Option (State BufErr)} {bound : State BufErr → Nat}
    (hpass : ∀ s t, pass s = some t → pass t ≠ none → bound t < bound s)
    (hpos : ∀ s, pass s ≠ none → 0 < bound s) (n : Nat) {s : State BufErr} (hs : bound s ≤ n) :
    pass (iterate pass n s) = none := by
  induction n generalizing s with
  | zero =>
    by_contra h
    have := hpos s h
    omega
  | succ n ih =>
    cases h : pass s with
    | none => rwa [iterate_of_none h]
    | some t =>
      rw [iterate_of_some h]
      by_cases ht : pass t = none
      · rwa [iterate_of_none ht]
      · exact ih (by have := hpass s t h ht; omega)

/-- Running the loop again where it has stopped changes nothing; running it for longer only goes on from there. -/
theorem iterate_add (pass : State BufErr → Option (State BufErr)) (m n : Nat) (s : State BufErr) :
    iterate pass (m + n) s = iterate pass n (iterate pass m s) := by
  induction m generalizing s with
  | zero => simp
  | succ m ih =>
    rw [Nat.succ_add]
    cases h : pass s with
    | none => rw [iterate_of_none h, iterate_of_none h, iterate_of_none h]
    | some t => rw [iterate_of_some h, iterate_of_some h, ih]

end Sys2Proof.Machine
end

