-- ==== Sys2Proof/Laws/Operands.lean ====
section
/-! SUPPORT. What the data paths compute, as numbers. -/

namespace Sys2Proof.Machine

/-- The continuation bit is set in the bytes from 0x80 on. -/
theorem contBit_iff (b : Byte) : contBit b = true ↔ 128 ≤ b.toNat := by
  revert b
  decide

theorem groupOf_toNat (b : Byte) : (groupOf b).toNat = b.toNat % 128 := by
  simp [groupOf, BitVec.extractLsb'_toNat]

/-- "Bits above bit 6 are set" says that the value does not fit in 7 bits. -/
theorem moreGroups_iff (rem : Value) : moreGroups rem = true ↔ 128 ≤ rem.toNat := by
  have hr := rem.isLt
  simp only [moreGroups, bne_iff_ne, ne_eq, ← BitVec.toNat_inj, BitVec.extractLsb'_toNat, BitVec.toNat_ofNat,
    Nat.shiftRight_eq_div_pow]
  omega

theorem lsr32_toNat (v : Value) (s : Nat) : (lsr32 v s).toNat = v.toNat / 2 ^ s := by
  simp [lsr32, Nat.shiftRight_eq_div_pow]

theorem shl32_toNat (v : Value) (s : Nat) : (shl32 v s).toNat = v.toNat * 2 ^ s % 2 ^ 32 := by
  simp [shl32, Nat.shiftLeft_eq]

/-- The byte written is the low group, with 0x80 added when more follow. -/
theorem outByte_toNat (rem : Value) :
    (outByte rem).toNat = rem.toNat % 128 + if moreGroups rem then 128 else 0 := by
  have hlt : rem.toNat % 128 < 2 ^ 7 := Nat.mod_lt _ (by norm_num)
  have hor := Nat.two_pow_add_eq_or_of_lt hlt 1
  have hor' : 128 + rem.toNat % 128 = 128 ||| rem.toNat % 128 := hor
  unfold outByte
  split <;> rw [BitVec.toNat_append] <;> simp [BitVec.extractLsb'_toNat, Nat.shiftLeft_eq, ← hor', add_comm]

/-- A group absorbed into an accumulator that has room for it adds its number times `2^(7 * IDX)`, truncated. -/
theorem absorb_eq_add {acc : Value} {idx : Nat} (b : Byte) (hidx : idx < 5) (hacc : acc.toNat < 2 ^ (7 * idx)) :
    absorb acc idx b = BitVec.ofNat 32 (acc.toNat + b.toNat % 128 * 2 ^ (7 * idx)) := by
  have hg : (groupOf b).toNat = b.toNat % 128 := groupOf_toNat b
  apply BitVec.eq_of_toNat_eq
  simp only [absorb, hidx, if_true, BitVec.toNat_or, shl32_toNat, BitVec.toNat_ofNat]
  have hz : ((groupOf b).zeroExtend 32).toNat = b.toNat % 128 := by
    rw [BitVec.toNat_setWidth, hg]; omega
  rw [hz]
  have hdis := Nat.two_pow_add_eq_or_of_lt hacc (b.toNat % 128)
  have : (acc.toNat + b.toNat % 128 * 2 ^ (7 * idx)) = acc.toNat ||| b.toNat % 128 * 2 ^ (7 * idx) := by
    rw [Nat.or_comm, mul_comm, ← hdis, add_comm]
  rw [this, Nat.or_mod_two_pow, Nat.mod_eq_of_lt acc.isLt]

theorem absorb_of_ge {acc : Value} {idx : Nat} (b : Byte) (hidx : 5 ≤ idx) : absorb acc idx b = acc := by
  simp [absorb, hidx]

/-- The thresholds of SIZEOF, as numbers. -/
theorem sizeOfValue_eq (v : Value) : sizeOfValue v =
    if v.toNat < 128 then 1 else if v.toNat < 16384 then 2 else if v.toNat < 2097152 then 3
    else if v.toNat < 268435456 then 4 else 5 := by
  simp [sizeOfValue, BitVec.lt_def]

end Sys2Proof.Machine
end

