-- ==== Sys2Proof/Laws/Memory.lean ====
section
/-! SUPPORT. The reference buffer's memory: reading after a write, and the canonical form. -/

namespace Sys2Proof.Machine

theorem Memory.wfFrom_mono {m : Memory} {lo lo' : Nat} (hle : lo' ≤ lo) (h : Memory.wfFrom lo m = true) :
    Memory.wfFrom lo' m = true := by
  cases m with
  | nil => rfl
  | cons cell m =>
    obtain ⟨k, c⟩ := cell
    simp only [Memory.wfFrom, Bool.and_eq_true, decide_eq_true_eq] at h ⊢
    exact ⟨⟨hle.trans h.1.1, h.1.2⟩, h.2⟩

/-- An index below the first listed one is not listed. -/
theorem Memory.read_below {m : Memory} {lo a : Nat} (h : Memory.wfFrom lo m = true) (ha : a < lo) :
    Memory.read m a = Config.unlistedByte := by
  induction m generalizing lo with
  | nil => rfl
  | cons cell m ih =>
    obtain ⟨k, c⟩ := cell
    simp only [Memory.wfFrom, Bool.and_eq_true, decide_eq_true_eq] at h
    have hk : k ≠ a := by omega
    simpa [Memory.read, hk] using ih h.2 (by omega)

theorem Memory.read_write_same {m : Memory} {lo : Nat} (a : Nat) (b : Byte) (h : Memory.wfFrom lo m = true) :
    Memory.read (Memory.write m a b) a = b := by
  induction m generalizing lo with
  | nil => by_cases hb : b = Config.unlistedByte <;> simp [Memory.write, Memory.read, hb]
  | cons cell m ih =>
    obtain ⟨k, c⟩ := cell
    simp only [Memory.wfFrom, Bool.and_eq_true, decide_eq_true_eq] at h
    obtain ⟨-, htail⟩ := h
    rcases Nat.lt_trichotomy a k with hlt | rfl | hgt
    · by_cases hb : b = Config.unlistedByte
      · simpa [Memory.write, Memory.read, hlt, hb, hlt.ne'] using Memory.read_below htail (by omega)
      · simp [Memory.write, Memory.read, hlt, hb]
    · by_cases hb : b = Config.unlistedByte
      · simpa [Memory.write, hb] using Memory.read_below htail (by omega)
      · simp [Memory.write, Memory.read, hb]
    · simp [Memory.write, Memory.read, hgt.not_gt, hgt.ne, hgt.ne', ih htail]

/-- A write leaves every other index alone, in any memory. -/
theorem Memory.read_write_other (m : Memory) {a a' : Nat} (b : Byte) (hne : a' ≠ a) :
    Memory.read (Memory.write m a b) a' = Memory.read m a' := by
  induction m with
  | nil => by_cases hb : b = Config.unlistedByte <;> simp [Memory.write, Memory.read, hb, hne.symm]
  | cons cell m ih =>
    obtain ⟨k, c⟩ := cell
    rcases Nat.lt_trichotomy a k with hlt | rfl | hgt
    · by_cases hb : b = Config.unlistedByte <;> simp [Memory.write, Memory.read, hlt, hb, hne.symm]
    · by_cases hb : b = Config.unlistedByte <;> simp [Memory.write, Memory.read, hb, hne.symm]
    · simp only [Memory.write, hgt.not_gt, hgt.ne', if_false, Memory.read, ih]

/-- A write at or above `lo` keeps the canonical form from `lo` on. -/
theorem Memory.wfFrom_write {m : Memory} {lo : Nat} {a : Nat} (b : Byte) (h : Memory.wfFrom lo m = true)
    (ha : lo ≤ a) : Memory.wfFrom lo (Memory.write m a b) = true := by
  induction m generalizing lo with
  | nil => by_cases hb : b = Config.unlistedByte <;> simp [Memory.write, Memory.wfFrom, hb, ha]
  | cons cell m ih =>
    obtain ⟨k, c⟩ := cell
    have hwhole := h
    simp only [Memory.wfFrom, Bool.and_eq_true, decide_eq_true_eq, bne_iff_ne] at h
    obtain ⟨⟨hlo, hc⟩, htail⟩ := h
    rcases Nat.lt_trichotomy a k with hlt | rfl | hgt
    · by_cases hb : b = Config.unlistedByte
      · simpa [Memory.write, hlt, hb] using hwhole
      · have hka : a + 1 ≤ k := hlt
        simp [Memory.write, Memory.wfFrom, hlt, hb, ha, hc, hka, htail]
    · by_cases hb : b = Config.unlistedByte
      · simpa [Memory.write, hb] using Memory.wfFrom_mono (by omega) htail
      · simp [Memory.write, Memory.wfFrom, hb, hlo, htail]
    · simp [Memory.write, Memory.wfFrom, hgt.not_gt, hgt.ne', hlo, hc, ih htail (by omega)]

/-- The memory operation keeps the canonical form. -/
theorem Memory.wf_write {m : Memory} (a : Nat) (b : Byte) (h : Memory.wf m = true) :
    Memory.wf (Memory.write m a b) = true :=
  Memory.wfFrom_write b h (Nat.zero_le a)

/-- The buffer after reset holds nothing, in canonical form. -/
theorem reset_memory_wf : Memory.wf State.reset.buffer.memory = true := rfl

end Sys2Proof.Machine
end

