-- ==== Sys2Proof/Laws/State.lean ====
section
/-! SUPPORT. One lemma per field of the state and update of it. -/

namespace Sys2Proof.Machine

variable {BufErr : Type}

@[simp] theorem State.withBlock_block (s : State BufErr) (b : Block) : (s.withBlock b).block = b := rfl
@[simp] theorem State.withBlock_response (s : State BufErr) (b : Block) : (s.withBlock b).response = s.response := rfl
@[simp] theorem State.withBlock_caller (s : State BufErr) (b : Block) : (s.withBlock b).caller = s.caller := rfl
@[simp] theorem State.withBlock_buffer (s : State BufErr) (b : Block) : (s.withBlock b).buffer = s.buffer := rfl
@[simp] theorem State.withBlock_trace (s : State BufErr) (b : Block) : (s.withBlock b).trace = s.trace := rfl

@[simp] theorem State.withResponse_block (s : State BufErr) (r : Option (Response BufErr)) : (s.withResponse r).block = s.block := rfl
@[simp] theorem State.withResponse_response (s : State BufErr) (r : Option (Response BufErr)) : (s.withResponse r).response = r := rfl
@[simp] theorem State.withResponse_caller (s : State BufErr) (r : Option (Response BufErr)) : (s.withResponse r).caller = s.caller := rfl
@[simp] theorem State.withResponse_buffer (s : State BufErr) (r : Option (Response BufErr)) : (s.withResponse r).buffer = s.buffer := rfl
@[simp] theorem State.withResponse_trace (s : State BufErr) (r : Option (Response BufErr)) : (s.withResponse r).trace = s.trace := rfl

@[simp] theorem State.withCaller_block (s : State BufErr) (c : List CallerInput) : (s.withCaller c).block = s.block := rfl
@[simp] theorem State.withCaller_response (s : State BufErr) (c : List CallerInput) : (s.withCaller c).response = s.response := rfl
@[simp] theorem State.withCaller_caller (s : State BufErr) (c : List CallerInput) : (s.withCaller c).caller = c := rfl
@[simp] theorem State.withCaller_buffer (s : State BufErr) (c : List CallerInput) : (s.withCaller c).buffer = s.buffer := rfl
@[simp] theorem State.withCaller_trace (s : State BufErr) (c : List CallerInput) : (s.withCaller c).trace = s.trace := rfl

@[simp] theorem State.withBuffer_block (s : State BufErr) (b : Buffer BufErr) : (s.withBuffer b).block = s.block := rfl
@[simp] theorem State.withBuffer_response (s : State BufErr) (b : Buffer BufErr) : (s.withBuffer b).response = s.response := rfl
@[simp] theorem State.withBuffer_caller (s : State BufErr) (b : Buffer BufErr) : (s.withBuffer b).caller = s.caller := rfl
@[simp] theorem State.withBuffer_buffer (s : State BufErr) (b : Buffer BufErr) : (s.withBuffer b).buffer = b := rfl
@[simp] theorem State.withBuffer_trace (s : State BufErr) (b : Buffer BufErr) : (s.withBuffer b).trace = s.trace := rfl

@[simp] theorem State.record_block (s : State BufErr) (e : Event BufErr) : (s.record e).block = s.block := rfl
@[simp] theorem State.record_response (s : State BufErr) (e : Event BufErr) : (s.record e).response = s.response := rfl
@[simp] theorem State.record_caller (s : State BufErr) (e : Event BufErr) : (s.record e).caller = s.caller := rfl
@[simp] theorem State.record_buffer (s : State BufErr) (e : Event BufErr) : (s.record e).buffer = s.buffer := rfl
@[simp] theorem State.record_trace (s : State BufErr) (e : Event BufErr) : (s.record e).trace = s.trace ++ [e] := rfl

@[simp] theorem finish_block (r : Response BufErr) (s : State BufErr) : (finish r s).block = .idle := rfl
@[simp] theorem finish_response (r : Response BufErr) (s : State BufErr) : (finish r s).response = some r := rfl
@[simp] theorem finish_caller (r : Response BufErr) (s : State BufErr) : (finish r s).caller = s.caller := rfl
@[simp] theorem finish_buffer (r : Response BufErr) (s : State BufErr) : (finish r s).buffer = s.buffer := rfl
@[simp] theorem finish_trace (r : Response BufErr) (s : State BufErr) : (finish r s).trace = s.trace ++ [.response r] := rfl

@[simp] theorem accept_block (i : Instr) (s : State BufErr) : (accept i s).block = s.block := rfl
@[simp] theorem accept_response (i : Instr) (s : State BufErr) : (accept i s).response = none := rfl
@[simp] theorem accept_caller (i : Instr) (s : State BufErr) : (accept i s).caller = s.caller := rfl
@[simp] theorem accept_buffer (i : Instr) (s : State BufErr) : (accept i s).buffer = s.buffer := rfl
@[simp] theorem accept_trace (i : Instr) (s : State BufErr) : (accept i s).trace = s.trace ++ [.command i] := rfl

@[simp] theorem resetBlock_block (s : State BufErr) : (resetBlock s).block = .idle := rfl
@[simp] theorem resetBlock_response (s : State BufErr) : (resetBlock s).response = none := rfl
@[simp] theorem resetBlock_caller (s : State BufErr) : (resetBlock s).caller = s.caller := rfl
@[simp] theorem resetBlock_buffer (s : State BufErr) : (resetBlock s).buffer = s.buffer := rfl
@[simp] theorem resetBlock_trace (s : State BufErr) : (resetBlock s).trace = s.trace ++ [.reset] := rfl

@[simp] theorem complete_eq_finish (r : Option Value) (s : State BufErr) : complete r s = finish (.ok r) s := rfl

@[simp] theorem raise_eq_finish (e : OpError BufErr) (s : State BufErr) : raise e s = finish (.error e) s := rfl

/-- Two states are equal when their five fields are. -/
theorem State.ext_fields {s t : State BufErr} (hb : s.block = t.block) (hr : s.response = t.response)
    (hc : s.caller = t.caller) (hu : s.buffer = t.buffer) (ht : s.trace = t.trace) : s = t := by
  cases s
  cases t
  simp_all

end Sys2Proof.Machine
end

