-- ==== Sys2Proof/Laws/Port.lean ====
section
/-! SUPPORT. What a transaction on the buffer port can do. -/

namespace Sys2Proof.Machine

variable {BufErr : Type}

@[simp] theorem Buffer.readByte_oracle_nil (ws : List (WriteAnswer BufErr)) : (Buffer.oracle [] ws).readByte = none := rfl

@[simp] theorem Buffer.readByte_oracle_cons (a : ReadAnswer BufErr) (rs : List (ReadAnswer BufErr)) (ws : List (WriteAnswer BufErr)) :
    (Buffer.oracle (a :: rs) ws).readByte = some (a, .oracle rs ws) := rfl

@[simp] theorem Buffer.writeByte_oracle_nil (rs : List (ReadAnswer BufErr)) (b : Byte) :
    (Buffer.oracle rs []).writeByte b = none := rfl

@[simp] theorem Buffer.writeByte_oracle_cons (rs : List (ReadAnswer BufErr)) (a : WriteAnswer BufErr) (ws : List (WriteAnswer BufErr))
    (b : Byte) : (Buffer.oracle rs (a :: ws)).writeByte b = some (a, .oracle rs ws) := rfl

theorem Buffer.readByte_refBuf_of_lt {r : RefBuf BufErr} (h : r.rpos < r.wpos) :
    (Buffer.refBuf r).readByte =
      some (.ok (Memory.read r.mem r.rpos), .refBuf { r with rpos := r.rpos + 1 }) := by
  simp [Buffer.readByte, RefBuf.readByte, h]

theorem Buffer.readByte_refBuf_of_ge {r : RefBuf BufErr} (h : r.wpos ≤ r.rpos) :
    (Buffer.refBuf r).readByte = some (.fail r.underflow, .refBuf r) := by
  simp [Buffer.readByte, RefBuf.readByte, Nat.not_lt.2 h]

theorem Buffer.writeByte_refBuf_of_lt {r : RefBuf BufErr} (b : Byte) (h : r.wpos < r.cap) :
    (Buffer.refBuf r).writeByte b =
      some (.ok, .refBuf { r with mem := Memory.write r.mem r.wpos b, wpos := r.wpos + 1 }) := by
  simp [Buffer.writeByte, RefBuf.writeByte, h]

theorem Buffer.writeByte_refBuf_of_ge {r : RefBuf BufErr} (b : Byte) (h : r.cap ≤ r.wpos) :
    (Buffer.refBuf r).writeByte b = some (.fail r.overflow, .refBuf r) := by
  simp [Buffer.writeByte, RefBuf.writeByte, Nat.not_lt.2 h]

/-- A read transaction changes the buffer as the buffer says and adds its event; nothing else. -/
theorem State.readByte_eq (s : State BufErr) :
    s.readByte = s.buffer.readByte.map fun p => (p.1, (s.withBuffer p.2).record (.read p.1)) := by
  unfold State.readByte
  split <;> simp_all

/-- A write transaction changes the buffer as the buffer says and adds its event; nothing else. -/
theorem State.writeByte_eq (s : State BufErr) (b : Byte) :
    s.writeByte b = (s.buffer.writeByte b).map fun p => (p.1, (s.withBuffer p.2).record (.write b p.1)) := by
  unfold State.writeByte
  split <;> simp_all

/-- What a read can do to a buffer. -/
theorem Buffer.readByte_cases {buf buf' : Buffer BufErr} {a : ReadAnswer BufErr} (h : buf.readByte = some (a, buf')) :
    (∃ rs ws, buf = .oracle (a :: rs) ws ∧ buf' = .oracle rs ws) ∨
    (∃ r : RefBuf BufErr, buf = .refBuf r ∧ r.rpos < r.wpos ∧ a = .ok (Memory.read r.mem r.rpos) ∧
      buf' = .refBuf { r with rpos := r.rpos + 1 }) ∨
    (∃ r : RefBuf BufErr, buf = .refBuf r ∧ r.wpos ≤ r.rpos ∧ a = .fail r.underflow ∧ buf' = .refBuf r) := by
  cases buf with
  | oracle rs ws =>
    cases rs with
    | nil => simp at h
    | cons a' rs =>
      simp only [Buffer.readByte_oracle_cons, Option.some.injEq, Prod.mk.injEq] at h
      obtain ⟨rfl, rfl⟩ := h
      exact .inl ⟨rs, ws, rfl, rfl⟩
  | refBuf r =>
    rcases Nat.lt_or_ge r.rpos r.wpos with hlt | hge
    · rw [Buffer.readByte_refBuf_of_lt hlt] at h
      cases h
      exact .inr (.inl ⟨r, rfl, hlt, rfl, rfl⟩)
    · rw [Buffer.readByte_refBuf_of_ge hge] at h
      cases h
      exact .inr (.inr ⟨r, rfl, hge, rfl, rfl⟩)

/-- What a write can do to a buffer. -/
theorem Buffer.writeByte_cases {buf buf' : Buffer BufErr} {a : WriteAnswer BufErr} {b : Byte}
    (h : buf.writeByte b = some (a, buf')) :
    (∃ rs ws, buf = .oracle rs (a :: ws) ∧ buf' = .oracle rs ws) ∨
    (∃ r : RefBuf BufErr, buf = .refBuf r ∧ r.wpos < r.cap ∧ a = .ok ∧
      buf' = .refBuf { r with mem := Memory.write r.mem r.wpos b, wpos := r.wpos + 1 }) ∨
    (∃ r : RefBuf BufErr, buf = .refBuf r ∧ r.cap ≤ r.wpos ∧ a = .fail r.overflow ∧ buf' = .refBuf r) := by
  cases buf with
  | oracle rs ws =>
    cases ws with
    | nil => simp at h
    | cons a' ws =>
      simp only [Buffer.writeByte_oracle_cons, Option.some.injEq, Prod.mk.injEq] at h
      obtain ⟨rfl, rfl⟩ := h
      exact .inl ⟨rs, ws, rfl, rfl⟩
  | refBuf r =>
    rcases Nat.lt_or_ge r.wpos r.cap with hlt | hge
    · rw [Buffer.writeByte_refBuf_of_lt b hlt] at h
      cases h
      exact .inr (.inl ⟨r, rfl, hlt, rfl, rfl⟩)
    · rw [Buffer.writeByte_refBuf_of_ge b hge] at h
      cases h
      exact .inr (.inr ⟨r, rfl, hge, rfl, rfl⟩)

/-- A buffer does not answer a read only if it is an oracle with no answer left. -/
theorem Buffer.readByte_eq_none {buf : Buffer BufErr} : buf.readByte = none ↔ ∃ ws, buf = .oracle [] ws := by
  cases buf with
  | oracle rs ws => cases rs <;> simp
  | refBuf r => simp [Buffer.readByte]

/-- A buffer does not answer a write only if it is an oracle with no answer left. -/
theorem Buffer.writeByte_eq_none {buf : Buffer BufErr} {b : Byte} :
    buf.writeByte b = none ↔ ∃ rs, buf = .oracle rs [] := by
  cases buf with
  | oracle rs ws => cases ws <;> simp
  | refBuf r => simp [Buffer.writeByte]

end Sys2Proof.Machine
end

