-- ==== Sys2Proof/Laws/DecodeOp.lean ====
section
/-! SUPPORT. What one pass of DECODE can do, and its loop over bytes that say more follow. -/

namespace Sys2Proof.Machine

variable {BufErr : Type}

/-- Everything one pass of DECODE can do: the read fails; or the byte read is the terminator, or the tenth byte that
says more follow, or one more byte absorbed. -/
theorem decodePass_cases {s t : State BufErr} (h : decodePass s = some t) :
    ∃ acc idx a buf, s.block = .decoding acc idx ∧ s.buffer.readByte = some (a, buf) ∧
      let s' := (s.withBuffer buf).record (.read a)
      ((∃ e, a = .fail e ∧ t = finish (.error (.bufferReadFailure e)) s') ∨
       (∃ b, a = .ok b ∧ contBit b = false ∧ t = finish (.ok (some (absorb acc idx b))) s') ∨
       (∃ b, a = .ok b ∧ contBit b = true ∧ 9 ≤ idx ∧ t = finish (.error .varintTooLong) s') ∨
       (∃ b, a = .ok b ∧ contBit b = true ∧ idx < 9 ∧
          t = s'.withBlock (.decoding (absorb acc idx b) (idx + 1)))) := by
  cases hb : s.block with
  | idle => simp [decodePass, hb] at h
  | encoding rem idx => simp [decodePass, hb] at h
  | decoding acc idx =>
    cases hr : s.buffer.readByte with
    | none => simp [decodePass, hb, State.readByte_eq, hr] at h
    | some p =>
      obtain ⟨a, buf⟩ := p
      refine ⟨acc, idx, a, buf, rfl, rfl, ?_⟩
      cases a with
      | fail e =>
        simp only [decodePass, hb, State.readByte_eq, hr, Option.map_some, raise_eq_finish,
          Option.some.injEq] at h
        exact .inl ⟨e, rfl, h.symm⟩
      | ok b =>
        simp only [decodePass, hb, State.readByte_eq, hr, Option.map_some, decodeByte, raise_eq_finish,
          complete_eq_finish, Option.some.injEq] at h
        refine .inr ?_
        by_cases hc : contBit b = true
        · by_cases hi : 9 ≤ idx
          · have : 10 ≤ idx + 1 := by omega
            simp only [hc, this, if_true] at h
            exact .inr (.inl ⟨b, rfl, hc, hi, h.symm⟩)
          · have : ¬ 10 ≤ idx + 1 := by omega
            simp only [hc, this, if_true, if_false] at h
            exact .inr (.inr ⟨b, rfl, hc, by omega, h.symm⟩)
        · simp only [hc, Bool.false_eq_true, if_false] at h
          exact .inl ⟨b, rfl, by simpa using hc, h.symm⟩

/-- DECODE has no pass exactly where none is in progress or the buffer does not answer a read. -/
theorem decodePass_eq_none {s : State BufErr} :
    decodePass s = none ↔ (∀ acc idx, s.block ≠ .decoding acc idx) ∨ s.buffer.readByte = none := by
  cases hb : s.block with
  | idle => simp [decodePass, hb]
  | encoding rem idx => simp [decodePass, hb]
  | decoding acc idx =>
    cases hr : s.buffer.readByte with
    | none => simp [decodePass, hb, State.readByte_eq, hr]
    | some p =>
      obtain ⟨a, buf⟩ := p
      cases a <;> simp [decodePass, hb, State.readByte_eq, hr]

theorem decodePass_fail {s : State BufErr} {acc : Value} {idx : Nat} {e : BufErr} {buf : Buffer BufErr}
    (hb : s.block = .decoding acc idx) (hr : s.buffer.readByte = some (.fail e, buf)) :
    decodePass s =
      some (finish (.error (.bufferReadFailure e)) ((s.withBuffer buf).record (.read (.fail e)))) := by
  simp [decodePass, hb, State.readByte_eq, hr]

theorem decodePass_terminator {s : State BufErr} {acc : Value} {idx : Nat} {b : Byte} {buf : Buffer BufErr}
    (hb : s.block = .decoding acc idx) (hr : s.buffer.readByte = some (.ok b, buf)) (hc : contBit b = false) :
    decodePass s =
      some (finish (.ok (some (absorb acc idx b))) ((s.withBuffer buf).record (.read (.ok b)))) := by
  simp [decodePass, hb, State.readByte_eq, hr, decodeByte, hc]

theorem decodePass_tenth {s : State BufErr} {acc : Value} {idx : Nat} {b : Byte} {buf : Buffer BufErr}
    (hb : s.block = .decoding acc idx) (hr : s.buffer.readByte = some (.ok b, buf)) (hc : contBit b = true)
    (hi : 9 ≤ idx) :
    decodePass s = some (finish (.error .varintTooLong) ((s.withBuffer buf).record (.read (.ok b)))) := by
  have : 10 ≤ idx + 1 := by omega
  simp [decodePass, hb, State.readByte_eq, hr, decodeByte, hc, this]

theorem decodePass_more {s : State BufErr} {acc : Value} {idx : Nat} {b : Byte} {buf : Buffer BufErr}
    (hb : s.block = .decoding acc idx) (hr : s.buffer.readByte = some (.ok b, buf)) (hc : contBit b = true)
    (hi : idx < 9) :
    decodePass s =
      some (((s.withBuffer buf).record (.read (.ok b))).withBlock (.decoding (absorb acc idx b) (idx + 1))) := by
  have : ¬ 10 ≤ idx + 1 := by omega
  simp [decodePass, hb, State.readByte_eq, hr, decodeByte, hc, this]

/-- The buffer answers reads with these bytes, in order, and is then the last one. -/
def serves : Buffer BufErr → List Byte → Buffer BufErr → Prop
  | buf, [], buf' => buf' = buf
  | buf, b :: bs, buf' => ∃ mid, buf.readByte = some (.ok b, mid) ∧ serves mid bs buf'

theorem serves_oracle (bs : List Byte) (rs : List (ReadAnswer BufErr)) (ws : List (WriteAnswer BufErr)) :
    serves (.oracle (bs.map .ok ++ rs) ws) bs (.oracle rs ws) := by
  induction bs with
  | nil => rfl
  | cons b bs ih => exact ⟨_, rfl, ih⟩

theorem serves_refBuf (r : RefBuf BufErr) (bs : List Byte) (hlen : r.rpos + bs.length ≤ r.wpos)
    (hbytes : ∀ i (hi : i < bs.length), bs[i] = Memory.read r.mem (r.rpos + i)) :
    serves (.refBuf r) bs (.refBuf { r with rpos := r.rpos + bs.length }) := by
  induction bs generalizing r with
  | nil => rfl
  | cons b bs ih =>
    simp only [List.length_cons] at hlen
    have hb : b = Memory.read r.mem r.rpos := hbytes 0 (by simp)
    refine ⟨.refBuf { r with rpos := r.rpos + 1 }, ?_, ?_⟩
    · rw [Buffer.readByte_refBuf_of_lt (by omega), hb]
    · have := ih { r with rpos := r.rpos + 1 } (by simp only; omega) (fun i hi => by
        have := hbytes (i + 1) (by simpa using hi)
        simpa [Nat.add_assoc, Nat.add_comm 1 i] using this)
      simpa [Nat.add_assoc, Nat.add_comm 1 bs.length] using this

/-- The accumulator after these bytes, the first of them at index `idx`. -/
def absorbAll (acc : Value) (idx : Nat) : List Byte → Value
  | [] => acc
  | b :: bs => absorbAll (absorb acc idx b) (idx + 1) bs

theorem absorbAll_append (acc : Value) (idx : Nat) (bs cs : List Byte) :
    absorbAll acc idx (bs ++ cs) = absorbAll (absorbAll acc idx bs) (idx + bs.length) cs := by
  induction bs generalizing acc idx with
  | nil => simp [absorbAll]
  | cons b bs ih => simp [absorbAll, ih, Nat.add_assoc, Nat.add_comm 1 bs.length]

/-- DECODE's loop over bytes that all say more follow, short of the tenth: it goes on with them absorbed. -/
theorem iterate_decodePass_more {s : State BufErr} {acc : Value} {idx : Nat} {bs : List Byte} {buf : Buffer BufErr} (n : Nat)
    (hb : s.block = .decoding acc idx) (hs : serves s.buffer bs buf) (hc : ∀ b ∈ bs, contBit b = true)
    (hlen : idx + bs.length ≤ 9) :
    iterate decodePass (bs.length + n) s =
      iterate decodePass n
        { s with block := .decoding (absorbAll acc idx bs) (idx + bs.length), buffer := buf,
                 trace := s.trace ++ bs.map fun b => .read (.ok b) } := by
  induction bs generalizing s acc idx with
  | nil =>
    cases s
    simp only [serves] at hs
    simp_all [absorbAll]
  | cons b bs ih =>
    obtain ⟨mid, hr, hs⟩ := hs
    simp only [List.length_cons] at hlen
    have hpass := decodePass_more hb hr (hc b (by simp)) (by omega)
    have hn : (b :: bs).length + n = (bs.length + n) + 1 := by simp only [List.length_cons]; omega
    rw [hn, iterate_of_some hpass,
      ih (s := ((s.withBuffer mid).record (.read (.ok b))).withBlock (.decoding (absorb acc idx b) (idx + 1)))
        rfl hs (fun b' hb' => hc b' (by simp [hb'])) (by omega)]
    simp only [State.withBlock, State.withBuffer, State.record, absorbAll, List.map_cons, List.append_assoc,
      List.singleton_append, List.length_cons]
    congr 3
    omega

end Sys2Proof.Machine
end

