-- ==== Sys2Proof/Laws/EncodeOp.lean ====
section
/-! SUPPORT. What one pass of ENCODE can do, and its loop. -/

namespace Sys2Proof.Machine

variable {BufErr : Type}

/-- Everything one pass of ENCODE can do: the write fails; or the byte written is the last, or more follow. -/
theorem encodePass_cases {s t : State BufErr} (h : encodePass s = some t) :
    ∃ rem idx a buf, s.block = .encoding rem idx ∧ s.buffer.writeByte (outByte rem) = some (a, buf) ∧
      let s' := (s.withBuffer buf).record (.write (outByte rem) a)
      ((∃ e, a = .fail e ∧ t = finish (.error (.bufferWriteFailure e)) s') ∨
       (a = .ok ∧ moreGroups rem = false ∧ t = finish (.ok none) s') ∨
       (a = .ok ∧ moreGroups rem = true ∧ t = s'.withBlock (.encoding (lsr32 rem 7) (idx + 1)))) := by
  cases hb : s.block with
  | idle => simp [encodePass, hb] at h
  | decoding acc idx => simp [encodePass, hb] at h
  | encoding rem idx =>
    cases hw : s.buffer.writeByte (outByte rem) with
    | none => simp [encodePass, hb, State.writeByte_eq, hw] at h
    | some p =>
      obtain ⟨a, buf⟩ := p
      refine ⟨rem, idx, a, buf, rfl, hw, ?_⟩
      cases a with
      | fail e =>
        simp only [encodePass, hb, State.writeByte_eq, hw, Option.map_some, raise_eq_finish,
          Option.some.injEq] at h
        exact .inl ⟨e, rfl, h.symm⟩
      | ok =>
        simp only [encodePass, hb, State.writeByte_eq, hw, Option.map_some, encodeByte, complete_eq_finish,
          Option.some.injEq] at h
        refine .inr ?_
        by_cases hm : moreGroups rem = true
        · simp only [hm, if_true] at h
          exact .inr ⟨rfl, hm, h.symm⟩
        · simp only [hm, Bool.false_eq_true, if_false] at h
          exact .inl ⟨rfl, by simpa using hm, h.symm⟩

/-- ENCODE has no pass exactly where none is in progress or the buffer does not answer a write. -/
theorem encodePass_eq_none {s : State BufErr} :
    encodePass s = none ↔
      (∀ rem idx, s.block ≠ .encoding rem idx) ∨ ∃ rs, s.buffer = .oracle rs [] := by
  cases hb : s.block with
  | idle => simp [encodePass, hb]
  | decoding acc idx => simp [encodePass, hb]
  | encoding rem idx =>
    have hsilent := Buffer.writeByte_eq_none (buf := s.buffer) (b := outByte rem)
    cases hw : s.buffer.writeByte (outByte rem) with
    | none => simpa [encodePass, hb, State.writeByte_eq, hw] using hsilent.1 hw
    | some p =>
      obtain ⟨a, buf⟩ := p
      have hsome : ¬ ∃ rs, s.buffer = .oracle rs [] := fun hs => by simp [hsilent.2 hs] at hw
      cases a <;> simpa [encodePass, hb, State.writeByte_eq, hw] using hsome

theorem encodePass_fail {s : State BufErr} {rem : Value} {idx : Nat} {e : BufErr} {buf : Buffer BufErr}
    (hb : s.block = .encoding rem idx) (hw : s.buffer.writeByte (outByte rem) = some (.fail e, buf)) :
    encodePass s =
      some (finish (.error (.bufferWriteFailure e))
        ((s.withBuffer buf).record (.write (outByte rem) (.fail e)))) := by
  simp [encodePass, hb, State.writeByte_eq, hw]

theorem encodePass_last {s : State BufErr} {rem : Value} {idx : Nat} {buf : Buffer BufErr}
    (hb : s.block = .encoding rem idx) (hw : s.buffer.writeByte (outByte rem) = some (.ok, buf))
    (hm : moreGroups rem = false) :
    encodePass s = some (finish (.ok none) ((s.withBuffer buf).record (.write (outByte rem) .ok))) := by
  simp [encodePass, hb, State.writeByte_eq, hw, encodeByte, hm]

theorem encodePass_more {s : State BufErr} {rem : Value} {idx : Nat} {buf : Buffer BufErr}
    (hb : s.block = .encoding rem idx) (hw : s.buffer.writeByte (outByte rem) = some (.ok, buf))
    (hm : moreGroups rem = true) :
    encodePass s =
      some (((s.withBuffer buf).record (.write (outByte rem) .ok)).withBlock
        (.encoding (lsr32 rem 7) (idx + 1))) := by
  simp [encodePass, hb, State.writeByte_eq, hw, encodeByte, hm]

/-- How many groups are left in a value: the passes ENCODE still needs. -/
def groupsLeft (rem : Value) : Nat := sizeOfValue rem

theorem groupsLeft_pos (rem : Value) : 1 ≤ groupsLeft rem := by
  rw [groupsLeft, sizeOfValue_eq]
  split_ifs <;> omega

theorem groupsLeft_le (rem : Value) : groupsLeft rem ≤ 5 := by
  rw [groupsLeft, sizeOfValue_eq]
  split_ifs <;> omega

/-- A pass after which more follow leaves one group fewer. -/
theorem groupsLeft_lsr32 {rem : Value} (hm : moreGroups rem = true) :
    groupsLeft (lsr32 rem 7) + 1 = groupsLeft rem := by
  rw [moreGroups_iff] at hm
  have hlt := rem.isLt
  have hshift : (lsr32 rem 7).toNat = rem.toNat / 128 := lsr32_toNat rem 7
  simp only [groupsLeft, sizeOfValue_eq, hshift]
  split_ifs <;> omega

/-- The last group is left exactly when nothing above bit 6 is set. -/
theorem moreGroups_iff_groupsLeft (rem : Value) : moreGroups rem = true ↔ 2 ≤ groupsLeft rem := by
  rw [moreGroups_iff, groupsLeft, sizeOfValue_eq]
  split_ifs <;> omega

end Sys2Proof.Machine
end

