-- ==== Sys2Proof/Laws/Answers.lean ====
section
/-! SUPPORT. Two buffers that give the same answers: what a transaction, and a pass of an operation, does over each. -/

namespace Sys2Proof.Safety

open Sys2Proof.Machine

@[simp] theorem afterAnswering_nil (buf : Buffer) : afterAnswering buf [] = some buf := rfl

@[simp] theorem afterAnswering_command (buf : Buffer) (i : Instr) (es : List Event) :
    afterAnswering buf (.command i :: es) = afterAnswering buf es := rfl

@[simp] theorem afterAnswering_response (buf : Buffer) (r : Response) (es : List Event) :
    afterAnswering buf (.response r :: es) = afterAnswering buf es := rfl

/-- A buffer answers a read and then some events as recorded exactly if it gives that answer and then answers them. -/
theorem afterAnswering_read {buf buf' : Buffer} {a : ReadAnswer} {es : List Event} :
    afterAnswering buf (.read a :: es) = some buf' ↔
      ∃ mid, buf.readByte = some (a, mid) ∧ afterAnswering mid es = some buf' := by
  rcases h : buf.readByte with _ | ⟨a', mid⟩
  · simp [afterAnswering, h]
  · by_cases ha : a' = a <;> simp [afterAnswering, h, ha]

/-- A buffer answers a write and then some events as recorded exactly if it gives that answer and then answers
them. -/
theorem afterAnswering_write {buf buf' : Buffer} {b : Byte} {a : WriteAnswer} {es : List Event} :
    afterAnswering buf (.write b a :: es) = some buf' ↔
      ∃ mid, buf.writeByte b = some (a, mid) ∧ afterAnswering mid es = some buf' := by
  rcases h : buf.writeByte b with _ | ⟨a', mid⟩
  · simp [afterAnswering, h]
  · by_cases ha : a' = a <;> simp [afterAnswering, h, ha]

/-- Answers come one after another: the buffer answers two lists of events by answering the first and then the
second. -/
theorem afterAnswering_append (buf : Buffer) (es es' : List Event) :
    afterAnswering buf (es ++ es') = (afterAnswering buf es).bind fun mid => afterAnswering mid es' := by
  induction es generalizing buf with
  | nil => rfl
  | cons e es ih =>
    cases e with
    | command i => exact ih buf
    | response r => exact ih buf
    | reset => exact ih buf
    | read a =>
      rcases h : buf.readByte with _ | ⟨a', mid⟩
      · simp [afterAnswering, h]
      · by_cases ha : a' = a <;> simp [afterAnswering, h, ha, ih]
    | write b a =>
      rcases h : buf.writeByte b with _ | ⟨a', mid⟩
      · simp [afterAnswering, h]
      · by_cases ha : a' = a <;> simp [afterAnswering, h, ha, ih]

theorem asksNoMore_idle (buf : Buffer) : asksNoMore .idle buf = true := rfl

theorem asksNoMore_decoding {acc : Value} {idx : Nat} {buf : Buffer} :
    asksNoMore (.decoding acc idx) buf = true ↔ buf.readByte = none := by
  cases buf with
  | oracle rs ws => cases rs <;> simp [asksNoMore]
  | refBuf r => simp [asksNoMore, Buffer.readByte]

theorem asksNoMore_encoding {rem : Value} {idx : Nat} {buf : Buffer} (b : Byte) :
    asksNoMore (.encoding rem idx) buf = true ↔ buf.writeByte b = none := by
  cases buf with
  | oracle rs ws => cases ws <;> simp [asksNoMore]
  | refBuf r => simp [asksNoMore, Buffer.writeByte]

/-- A pass of DECODE records what its buffer answers, and does the same over every buffer that answers so. -/
theorem decodePass_over {s t : State} (h : decodePass s = some t) :
    ∃ es, t.trace = s.trace ++ es ∧ afterAnswering s.buffer es = some t.buffer ∧
      ∀ buf buf', afterAnswering buf es = some buf' →
        decodePass { s with buffer := buf } = some { t with buffer := buf' } := by
  obtain ⟨acc, idx, a, mid, hb, hr, h⟩ := decodePass_cases h
  rcases h with ⟨e, rfl, rfl⟩ | ⟨b, rfl, hc, rfl⟩ | ⟨b, rfl, hc, h9, rfl⟩ | ⟨b, rfl, hc, h9, rfl⟩
  · refine ⟨[.read (.fail e), .response (.error (.bufferReadFailure e))], by simp,
      afterAnswering_read.2 ⟨_, hr, rfl⟩, fun buf buf' hs => ?_⟩
    obtain ⟨_, h1, h2⟩ := afterAnswering_read.1 hs
    cases h2
    exact decodePass_fail (s := { s with buffer := buf }) hb h1
  · refine ⟨[.read (.ok b), .response (.ok (some (absorb acc idx b)))], by simp,
      afterAnswering_read.2 ⟨_, hr, rfl⟩, fun buf buf' hs => ?_⟩
    obtain ⟨_, h1, h2⟩ := afterAnswering_read.1 hs
    cases h2
    exact decodePass_terminator (s := { s with buffer := buf }) hb h1 hc
  · refine ⟨[.read (.ok b), .response (.error .varintTooLong)], by simp,
      afterAnswering_read.2 ⟨_, hr, rfl⟩, fun buf buf' hs => ?_⟩
    obtain ⟨_, h1, h2⟩ := afterAnswering_read.1 hs
    cases h2
    exact decodePass_tenth (s := { s with buffer := buf }) hb h1 hc h9
  · refine ⟨[.read (.ok b)], by simp, afterAnswering_read.2 ⟨_, hr, rfl⟩, fun buf buf' hs => ?_⟩
    obtain ⟨_, h1, h2⟩ := afterAnswering_read.1 hs
    cases h2
    exact decodePass_more (s := { s with buffer := buf }) hb h1 hc h9

/-- A pass of ENCODE records what its buffer answers, and does the same over every buffer that answers so. -/
theorem encodePass_over {s t : State} (h : encodePass s = some t) :
    ∃ es, t.trace = s.trace ++ es ∧ afterAnswering s.buffer es = some t.buffer ∧
      ∀ buf buf', afterAnswering buf es = some buf' →
        encodePass { s with buffer := buf } = some { t with buffer := buf' } := by
  obtain ⟨rem, idx, a, mid, hb, hr, h⟩ := encodePass_cases h
  rcases h with ⟨e, rfl, rfl⟩ | ⟨rfl, hm, rfl⟩ | ⟨rfl, hm, rfl⟩
  · refine ⟨[.write (outByte rem) (.fail e), .response (.error (.bufferWriteFailure e))], by simp,
      afterAnswering_write.2 ⟨_, hr, rfl⟩, fun buf buf' hs => ?_⟩
    obtain ⟨_, h1, h2⟩ := afterAnswering_write.1 hs
    cases h2
    simp only [encodePass, hb, State.writeByte_eq, h1, Option.map_some]
    rfl
  · refine ⟨[.write (outByte rem) .ok, .response (.ok none)], by simp,
      afterAnswering_write.2 ⟨_, hr, rfl⟩, fun buf buf' hs => ?_⟩
    obtain ⟨_, h1, h2⟩ := afterAnswering_write.1 hs
    cases h2
    simp only [encodePass, hb, State.writeByte_eq, h1, Option.map_some, encodeByte, hm]
    rfl
  · refine ⟨[.write (outByte rem) .ok], by simp, afterAnswering_write.2 ⟨_, hr, rfl⟩, fun buf buf' hs => ?_⟩
    obtain ⟨_, h1, h2⟩ := afterAnswering_write.1 hs
    cases h2
    simp only [encodePass, hb, State.writeByte_eq, h1, Option.map_some, encodeByte, hm]
    rfl

end Sys2Proof.Safety
end

