-- ==== Sys2Proof/Laws/PerInstr.lean ====
section
/-! SUPPORT. What is said of every instruction as syntax. -/

namespace Sys2Proof.Laws.WellFormedEncoding

/-- The instruction is well formed and its command word does not have the reserved code. -/
def Statement (i : Instr) : Prop := i.wellFormed = true ∧ commandWellFormed (encodeCommand i) = true

theorem code_in_place (op : BitVec 2) (v : Value) : BitVec.extractLsb' 32 2 (op ++ v) = op := by
  apply BitVec.eq_of_toNat_eq
  have hop := op.isLt
  rw [BitVec.extractLsb'_toNat, BitVec.toNat_append, ← Nat.shiftLeft_add_eq_or_of_lt v.isLt,
    Nat.shiftRight_eq_div_pow, Nat.shiftLeft_eq]
  omega

theorem decode (v : Value) : Statement (.decode v) :=
  ⟨rfl, by simp only [commandWellFormed, encodeCommand, code_in_place]; rfl⟩

theorem encode (v : Value) : Statement (.encode v) :=
  ⟨rfl, by simp only [commandWellFormed, encodeCommand, code_in_place]; rfl⟩

theorem sizeof (v : Value) : Statement (.sizeof v) :=
  ⟨rfl, by simp only [commandWellFormed, encodeCommand, code_in_place]; rfl⟩

end Sys2Proof.Laws.WellFormedEncoding
end

