-- ==== Sys2Proof/Laws/Step.lean ====
section
/-! SUPPORT. What a meaning and a step can do, said once. -/

namespace Sys2Proof.Machine

/-- An operation begins in an idle block and in no other. -/
theorem whenIdle_eq_next {s t u : State} : whenIdle s t = .next u ↔ s.block = .idle ∧ t = u := by
  unfold whenIdle
  cases s.block <;> simp

theorem whenIdle_of_idle {s : State} (t : State) (h : s.block = .idle) : whenIdle s t = .next t := by
  simp [whenIdle, h]

theorem whenIdle_of_busy {s : State} (t : State) (h : s.block ≠ .idle) : whenIdle s t = .fault .commandWhileBusy := by
  unfold whenIdle
  cases hb : s.block <;> simp_all

/-- The state in which each operation's loop begins. -/
theorem execDecode_cases {v : Value} {s t : State} (h : exec (.decode v) s = .next t) :
    s.block = .idle ∧
      t = iterate decodePass 10 ((accept (.decode v) s).withBlock (.decoding 0#32 0)) := by
  obtain ⟨hidle, ht⟩ := whenIdle_eq_next.1 h
  exact ⟨hidle, ht.symm⟩

theorem execEncode_cases {v : Value} {s t : State} (h : exec (.encode v) s = .next t) :
    s.block = .idle ∧
      t = iterate encodePass 5 ((accept (.encode v) s).withBlock (.encoding v 0)) := by
  obtain ⟨hidle, ht⟩ := whenIdle_eq_next.1 h
  exact ⟨hidle, ht.symm⟩

theorem execSizeof_cases {v : Value} {s t : State} (h : exec (.sizeof v) s = .next t) :
    s.block = .idle ∧
      t = finish (.ok (some (BitVec.ofNat 32 (sizeOfValue v)))) (accept (.sizeof v) s) := by
  obtain ⟨hidle, ht⟩ := whenIdle_eq_next.1 h
  exact ⟨hidle, ht.symm⟩

/-- A busy block goes on in one way only. -/
theorem resume_eq_next {s t : State} :
    resume s = .next t ↔
      (decodePass s ≠ none ∧ t = iterate decodePass 10 s) ∨
      (encodePass s ≠ none ∧ t = iterate encodePass 5 s) := by
  unfold resume nextPass runOperation runDecode runEncode
  cases hb : s.block with
  | idle => simp [decodePass, encodePass, hb]
  | decoding acc idx =>
    have henc : encodePass s = none := encodePass_eq_none.2 (.inl (by simp [hb]))
    cases hd : decodePass s <;> simp [henc, eq_comm]
  | encoding rem idx =>
    have hdec : decodePass s = none := decodePass_eq_none.2 (.inl (by simp [hb]))
    cases he : encodePass s <;> simp [hdec, eq_comm]

/-- Everything a step that goes on can do: reset, a command of an idle block, or the operation in progress. -/
theorem step_cases {s t : State} (h : step s = .next t) :
    (∃ rest, s.caller = .reset :: rest ∧ t = resetBlock (s.withCaller rest)) ∨
    (∃ w rest i, s.caller = .command w :: rest ∧ s.block = .idle ∧ decodeCommand w = .ok i ∧
      exec i (s.withCaller rest) = .next t) ∨
    ((∀ rest, s.caller ≠ .reset :: rest) ∧ s.block ≠ .idle ∧ resume s = .next t) := by
  cases hc : s.caller with
  | nil =>
    cases hb : s.block <;> simp only [step, stepWith, hc, hb, reduceCtorEq] at h
    all_goals exact .inr (.inr ⟨by simp, by simp, h⟩)
  | cons input rest =>
    cases input with
    | reset =>
      refine .inl ⟨rest, rfl, ?_⟩
      cases hb : s.block <;> simp only [step, stepWith, hc, hb] at h <;> cases h <;> rfl
    | command w =>
      cases hb : s.block with
      | idle =>
        refine .inr (.inl ⟨w, rest, ?_⟩)
        simp only [step, stepWith, hc, hb, issueWith] at h
        cases hd : decodeCommand w with
        | ok i => exact ⟨i, rfl, rfl, rfl, by simpa [hd] using h⟩
        | error e => cases e; simp [hd] at h
      | decoding acc idx =>
        simp only [step, stepWith, hc, hb] at h
        exact .inr (.inr ⟨by simp, by simp, h⟩)
      | encoding rem idx =>
        simp only [step, stepWith, hc, hb] at h
        exact .inr (.inr ⟨by simp, by simp, h⟩)

end Sys2Proof.Machine
end

