-- ==== Sys2Proof/Laws/Tokens.lean ====
section
/-! SUPPORT. Renaming failure tokens, of one type as those of another, goes through every operation. -/

namespace Sys2Proof.Safety

open Sys2Proof.Machine

variable {E F : Type} (f : E → F)

@[simp] theorem renameState_block (s : State E) : (renameState f s).block = s.block := rfl
@[simp] theorem renameState_response (s : State E) :
    (renameState f s).response = s.response.map (renameResponse f) := rfl
@[simp] theorem renameState_caller (s : State E) : (renameState f s).caller = s.caller := rfl
@[simp] theorem renameState_buffer (s : State E) : (renameState f s).buffer = renameBuffer f s.buffer := rfl
@[simp] theorem renameState_trace (s : State E) : (renameState f s).trace = s.trace.map (renameEvent f) := rfl

theorem renameState_withBlock (s : State E) (b : Block) :
    renameState f (s.withBlock b) = (renameState f s).withBlock b := rfl

theorem renameState_withCaller (s : State E) (c : List CallerInput) :
    renameState f (s.withCaller c) = (renameState f s).withCaller c := rfl

theorem renameState_withBuffer (s : State E) (b : Buffer E) :
    renameState f (s.withBuffer b) = (renameState f s).withBuffer (renameBuffer f b) := rfl

theorem renameState_record (s : State E) (e : Event E) :
    renameState f (s.record e) = (renameState f s).record (renameEvent f e) := by
  simp [renameState, State.record]

theorem renameState_finish (r : Response E) (s : State E) :
    renameState f (finish r s) = finish (renameResponse f r) (renameState f s) := by
  simp [renameState, finish, State.withBlock, State.withResponse, State.record, renameEvent]

theorem renameState_accept (i : Instr) (s : State E) :
    renameState f (accept i s) = accept i (renameState f s) := by
  simp [renameState, accept, State.withResponse, State.record, renameEvent]

theorem renameState_resetBlock (s : State E) :
    renameState f (resetBlock s) = resetBlock (renameState f s) := by
  simp [renameState, resetBlock, State.withBlock, State.withResponse, State.record, renameEvent]

/-- The buffer with renamed tokens answers a read as before, the token renamed. -/
theorem readByte_renameBuffer (buf : Buffer E) :
    (renameBuffer f buf).readByte = buf.readByte.map fun p => (renameRead f p.1, renameBuffer f p.2) := by
  cases buf with
  | oracle reads writes => cases reads <;> rfl
  | refBuf r =>
    simp only [renameBuffer, Buffer.readByte, RefBuf.readByte, renameRefBuf, Option.map_some]
    split <;> rfl

/-- The buffer with renamed tokens answers a write as before, the token renamed. -/
theorem writeByte_renameBuffer (buf : Buffer E) (b : Byte) :
    (renameBuffer f buf).writeByte b =
      (buf.writeByte b).map fun p => (renameWrite f p.1, renameBuffer f p.2) := by
  cases buf with
  | oracle reads writes => cases writes <;> rfl
  | refBuf r =>
    simp only [renameBuffer, Buffer.writeByte, RefBuf.writeByte, renameRefBuf, Option.map_some]
    split <;> rfl

theorem renameState_decodeByte (acc : Value) (idx : Nat) (b : Byte) (s : State E) :
    renameState f (decodeByte acc idx b s) = decodeByte acc idx b (renameState f s) := by
  unfold decodeByte
  split
  · split
    · exact renameState_finish f _ s
    · rfl
  · exact renameState_finish f _ s

theorem renameState_encodeByte (rem : Value) (idx : Nat) (s : State E) :
    renameState f (encodeByte rem idx s) = encodeByte rem idx (renameState f s) := by
  unfold encodeByte
  split
  · rfl
  · exact renameState_finish f _ s

/-- A pass of DECODE goes as before with the tokens renamed. -/
theorem decodePass_renameState (s : State E) :
    decodePass (renameState f s) = (decodePass s).map (renameState f) := by
  cases hb : s.block with
  | idle => simp [decodePass, hb]
  | encoding rem idx => simp [decodePass, hb]
  | decoding acc idx =>
    rcases hr : s.buffer.readByte with _ | ⟨b | e, buf⟩ <;>
      simp [decodePass, hb, State.readByte_eq, readByte_renameBuffer, hr, renameRead, renameState_finish,
        renameState_decodeByte, renameState_record, renameState_withBuffer, renameEvent, renameResponse]

/-- A pass of ENCODE goes as before with the tokens renamed. -/
theorem encodePass_renameState (s : State E) :
    encodePass (renameState f s) = (encodePass s).map (renameState f) := by
  cases hb : s.block with
  | idle => simp [encodePass, hb]
  | decoding acc idx => simp [encodePass, hb]
  | encoding rem idx =>
    rcases hr : s.buffer.writeByte (outByte rem) with _ | ⟨_ | e, buf⟩ <;>
      simp [encodePass, hb, State.writeByte_eq, writeByte_renameBuffer, hr, renameWrite, renameState_finish,
        renameState_encodeByte, renameState_record, renameState_withBuffer, renameEvent, renameResponse]

/-- A loop whose passes go as before goes as before. -/
theorem iterate_renameState {pass : State E → Option (State E)} {pass' : State F → Option (State F)}
    (hpass : ∀ s, pass' (renameState f s) = (pass s).map (renameState f)) (n : Nat) (s : State E) :
    iterate pass' n (renameState f s) = renameState f (iterate pass n s) := by
  induction n generalizing s with
  | zero => rfl
  | succ n ih => cases h : pass s <;> simp [iterate, hpass, h, ih]

end Sys2Proof.Safety
end

