-- ==== Sys2Proof/Tests/Slice0.lean ====
section
/-! SUPPORT. The model's own tests: what is refused, words written out from the spec's encoding, the spec's vectors one
step each, and for every statement with hypotheses a state and operands that meet them. -/

namespace Sys2Proof.Tests

open Sys2Proof.Machine
open Sys2Proof.Safety

/-! ### Helpers -/

/-- An idle block before this buffer. -/
def idleWith (buf : Buffer) : State := { State.reset with buffer := buf }

/-- An idle block before a reference buffer that holds these readable bytes from index 0 and has this much room. -/
def idleRefBuf (bytes : List Byte) (room : Nat) : State :=
  idleWith (.refBuf { mem := (bytes.zipIdx.filter fun p => p.1 != 0#8).map fun p => (p.2, p.1), rpos := 0,
                      wpos := bytes.length, cap := bytes.length + room, underflow := .underflow, overflow := .overflow })

/-- The next state, if there is one. -/
def nextState : Host.Outcome State Fault Refusal → Option State
  | .next t => some t
  | .fault _ => none
  | .refused _ => none

/-- The response after an instruction. -/
def responseAfter (i : Instr) (s : State) : Option Response := (nextState (exec i s)).bind (·.response)

/-- The readable bytes of the reference buffer after an instruction, and the room left. -/
def bufferAfter (i : Instr) (s : State) : Option (List Byte × Nat) :=
  (nextState (exec i s)).bind fun t =>
    match t.buffer with
    | .oracle _ _ => none
    | .refBuf r => some (readable r, r.cap - r.wpos)

/-! ### Well-formedness -/

/-- 30_encoding R53: the reserved code is not well formed; every other command word is. -/
theorem smoke_reserved_command_is_ill_formed :
    commandWellFormed 0x300000000#34 = false ∧ commandWellFormed 0x3FFFFFFFF#34 = false ∧
    commandWellFormed 0x2FFFFFFFF#34 = true := by decide

/-- 30_encoding R45, 41_encode R78: there is no ill-formed instruction, bit 31 set or not. -/
theorem smoke_every_operand_is_well_formed :
    (Instr.decode 0x80000000#32).wellFormed = true ∧ (Instr.encode 0x80000000#32).wellFormed = true ∧
    (Instr.sizeof 0xFFFFFFFF#32).wellFormed = true := by decide

/-! ### Words written out bit by bit (30_encoding R49, R50, R58) -/

theorem test_decode_word :
    decodeCommand 0b00_00010010001101000101011001111000#34 = .ok (.decode 0x12345678#32) := rfl

theorem test_encode_word :
    decodeCommand 0b01_00000000000000000000000100101100#34 = .ok (.encode 300#32) := rfl

theorem test_sizeof_word :
    decodeCommand 0b10_11011110101011011011111011101111#34 = .ok (.sizeof 0xDEADBEEF#32) := rfl

theorem test_reserved_word_is_rejected :
    decodeCommand 0b11_00000000000000000000000000000000#34 = .error .reservedCode := rfl

theorem test_table_words :
    decodeTableWord 40 0x0FFFFFFFF = some (.decode 0xFFFFFFFF#32) ∧
    decodeTableWord 40 0x100000000 = some (.encode 0#32) ∧
    decodeTableWord 40 0x200000000 = some (.sizeof 0#32) ∧
    decodeTableWord 40 0x300000000 = none ∧ decodeTableWord 40 0x400000000 = none := by decide

theorem test_encoded_words :
    encodeCommand (.decode 0#32) = 0x000000000#34 ∧ encodeCommand (.encode 0xDEADBEEF#32) = 0x1DEADBEEF#34 ∧
    encodeCommand (.sizeof 0x7FFFFFFF#32) = 0x27FFFFFFF#34 := by decide

/-! ### The spec's vectors (95_test_vectors sections 3 to 5) -/

/-- Section 5: a wide encoding, its extra groups and bits 6:4 of the fifth byte dropped. -/
theorem test_decode_wide :
    responseAfter (.decode 0#32) (idleRefBuf [0xEF, 0xFD, 0xB6, 0xF5, 0xFD, 0xFF, 0x03] 0) =
      some (.ok (some 0xDEADBEEF#32)) ∧
    bufferAfter (.decode 0#32) (idleRefBuf [0xEF, 0xFD, 0xB6, 0xF5, 0xFD, 0xFF, 0x03] 0) = some ([], 0) := by decide

/-- Section 5: ten continuation bytes; the terminator after them stays unread. -/
theorem test_decode_too_long :
    responseAfter (.decode 0#32) (idleRefBuf [0xFF, 0xFF, 0xFF, 0xFF, 0xFF, 0xFF, 0xFF, 0xFF, 0xFF, 0xFF, 0x00] 0) =
      some (.error .varintTooLong) ∧
    bufferAfter (.decode 0#32) (idleRefBuf [0xFF, 0xFF, 0xFF, 0xFF, 0xFF, 0xFF, 0xFF, 0xFF, 0xFF, 0xFF, 0x00] 0) =
      some ([0x00], 0) := by decide

/-- Section 4: bit 31 set, five bytes, no sign extension. -/
theorem test_encode_top_bit :
    responseAfter (.encode 0x80000000#32) (idleRefBuf [] 8) = some (.ok none) ∧
    bufferAfter (.encode 0x80000000#32) (idleRefBuf [] 8) = some ([0x80, 0x80, 0x80, 0x80, 0x08], 3) := by decide

/-- Section 4: room for one byte of two. -/
theorem test_encode_overflow :
    responseAfter (.encode 128#32) (idleRefBuf [] 1) = some (.error (.bufferWriteFailure .overflow)) ∧
    bufferAfter (.encode 128#32) (idleRefBuf [] 1) = some ([0x80], 0) := by decide

/-- Section 3: a signed compare would give 1. -/
theorem test_sizeof_top_bit :
    responseAfter (.sizeof 0x80000000#32) (idleRefBuf [] 0) = some (.ok (some 5#32)) := by decide

/-- Section 3: the threshold belongs to the larger size. -/
theorem test_sizeof_threshold :
    responseAfter (.sizeof 16383#32) (idleRefBuf [] 0) = some (.ok (some 2#32)) ∧
    responseAfter (.sizeof 16384#32) (idleRefBuf [] 0) = some (.ok (some 3#32)) := by decide

/-- Section 6 and 30_encoding R53, through the step. -/
theorem test_step_refuses_reserved :
    step (State.reset.withFetchWord 40 0x3FFFFFFFF) = .refused .reservedCommand := rfl

/-- 10_state R22: reset in the middle of a DECODE. -/
theorem test_reset_mid_operation :
    (nextState (step { State.reset with block := .decoding 5#32 1, caller := [.reset] })).map (·.block) =
      some .idle := by decide

/-! ### Every statement's hypotheses can be met -/

/-- `StepRunsDecodedCommand`. -/
theorem witness_step_runs :
    ∃ (s : State) (w : CommandWord) (rest : List CallerInput) (i : Instr),
      s.block = .idle ∧ s.caller = .command w :: rest ∧ decodeCommand w = .ok i ∧ i.wellFormed = true :=
  ⟨{ State.reset with caller := [.command 0x10000012C#34] }, 0x10000012C#34, [], .encode 300#32, rfl, rfl, rfl, rfl⟩

/-- `FetchedWordIsRunByTheNextStep`, for each instruction. -/
theorem witness_fetched_word :
    decodeTableWord 40 0x0FFFFFFFF = some (.decode 0xFFFFFFFF#32) ∧
    decodeTableWord 40 0x1FFFFFFFF = some (.encode 0xFFFFFFFF#32) ∧
    decodeTableWord 40 0x2FFFFFFFF = some (.sizeof 0xFFFFFFFF#32) := by decide

/-- `StepRefusesReservedCode`. -/
theorem witness_reserved :
    ∃ (s : State) (v : Value) (rest : List CallerInput), s.block = .idle ∧ s.caller = .command (3#2 ++ v) :: rest :=
  ⟨{ State.reset with caller := [.command (3#2 ++ 7#32)] }, 7#32, [], rfl, rfl⟩

/-- `BusyBlockAcceptsNoCommand`: a busy block with a command waiting goes on with its operation. -/
theorem witness_busy :
    ∃ s t : State, s.block ≠ .idle ∧ (∀ rest, s.caller ≠ .reset :: rest) ∧ step s = .next t :=
  ⟨{ State.reset with block := .decoding 0#32 0, caller := [.command 0#34], buffer := .oracle [.ok 5#8] [] }, _,
    by decide, by simp, rfl⟩

/-- `DecodeReturnsAssembledValue` and `DecodePlacesEachGroup`: the shortest accepted string, one of the
longest, and one whose fifth byte has bits that are dropped. -/
theorem witness_accepted :
    (∃ (s : State) (reads : List ReadAnswer) (writes : List WriteAnswer),
      s.block = .idle ∧ s.buffer = .oracle ([0x7F#8].map .ok ++ reads) writes) ∧
    accepted [0x7F#8] = true ∧
    accepted [0x81#8, 0x80#8, 0x80#8, 0x80#8, 0x80#8, 0x80#8, 0x80#8, 0x80#8, 0x80#8, 0x00#8] = true ∧
    accepted [0xFF#8, 0xFF#8, 0xFF#8, 0xFF#8, 0x7F#8] = true :=
  ⟨⟨idleWith (.oracle [.ok 0x7F#8] []), [], [], rfl, rfl⟩, by decide, by decide, by decide⟩

/-- `DecodeFailsAfterTenContinuationBytes`, `DecodeHandsOnReadFailure` and `DecodeWaitsForSilentBuffer`: ten
continuation bytes; none and nine of them. -/
theorem witness_continuation_bytes :
    (∃ (s : State) (bs : List Byte) (reads : List ReadAnswer) (writes : List WriteAnswer),
      s.block = .idle ∧ s.buffer = .oracle (bs.map .ok ++ reads) writes ∧ bs.length = 10 ∧
      bs.all continues = true) ∧
    (∃ (s : State) (bs : List Byte) (e : FailureToken) (reads : List ReadAnswer) (writes : List WriteAnswer),
      s.block = .idle ∧ s.buffer = .oracle (bs.map .ok ++ .fail e :: reads) writes ∧ bs.length = 9 ∧
      bs.all continues = true) ∧
    (∃ (s : State) (bs : List Byte) (e : FailureToken) (reads : List ReadAnswer) (writes : List WriteAnswer),
      s.block = .idle ∧ s.buffer = .oracle (bs.map .ok ++ .fail e :: reads) writes ∧ bs.length = 0 ∧
      bs.all continues = true) ∧
    (∃ (s : State) (bs : List Byte) (writes : List WriteAnswer),
      s.block = .idle ∧ s.buffer = .oracle (bs.map .ok) writes ∧ bs.length = 9 ∧ bs.all continues = true) :=
  ⟨⟨idleWith (.oracle (List.replicate 10 (.ok 0x80#8)) []), List.replicate 10 0x80#8, [], [], rfl, rfl, rfl,
      by decide⟩,
    ⟨idleWith (.oracle (List.replicate 9 (.ok 0xFF#8) ++ [.fail (.token 3)]) []), List.replicate 9 0xFF#8, .token 3, [],
      [], rfl, rfl, rfl, by decide⟩,
    ⟨idleWith (.oracle [.fail (.token 3)] []), [], .token 3, [], [], rfl, rfl, rfl, rfl⟩,
    ⟨idleWith (.oracle (List.replicate 9 (.ok 0x80#8)) []), List.replicate 9 0x80#8, [], rfl, rfl, rfl, by decide⟩⟩

/-- `DecodeEndsOnlyAsItsBytesSay`. -/
theorem witness_decode_oracle :
    ∃ (s : State) (reads : List ReadAnswer) (writes : List WriteAnswer),
      s.block = .idle ∧ s.buffer = .oracle reads writes :=
  ⟨State.reset, [], [], rfl, rfl⟩

/-- `TenthReadDecidesOverRefBuf`, each of its clauses, the first over an empty buffer and over nine bytes. -/
theorem witness_tenth_read :
    (∃ (s : State) (r : RefBuf) (bs : List Byte), s.block = .idle ∧ s.buffer = .refBuf r ∧ r.rpos ≤ r.wpos ∧
      bs.length = 0 ∧ bs.all continues = true ∧ readable r = bs) ∧
    (∃ (s : State) (r : RefBuf) (bs : List Byte), s.block = .idle ∧ s.buffer = .refBuf r ∧ r.rpos ≤ r.wpos ∧
      bs.length = 9 ∧ bs.all continues = true ∧ readable r = bs) ∧
    (∃ (s : State) (r : RefBuf) (bs rest : List Byte) (b : Byte), s.block = .idle ∧ s.buffer = .refBuf r ∧
      r.rpos ≤ r.wpos ∧ bs.length = 9 ∧ bs.all continues = true ∧ readable r = bs ++ b :: rest ∧
      continues b = true) ∧
    (∃ (s : State) (r : RefBuf) (bs rest : List Byte) (b : Byte), s.block = .idle ∧ s.buffer = .refBuf r ∧
      r.rpos ≤ r.wpos ∧ bs.length = 9 ∧ bs.all continues = true ∧ readable r = bs ++ b :: rest ∧
      continues b = false) :=
  ⟨⟨idleRefBuf [] 0, _, [], rfl, rfl, by decide, rfl, rfl, by decide⟩,
    ⟨idleRefBuf (List.replicate 9 0xFF#8) 0, _, List.replicate 9 0xFF#8, rfl, rfl, by decide, rfl, by decide, by decide⟩,
    ⟨idleRefBuf (List.replicate 10 0x80#8) 0, _, List.replicate 9 0x80#8, [], 0x80#8, rfl, rfl, by decide, rfl,
      by decide, by decide, by decide⟩,
    ⟨idleRefBuf (List.replicate 9 0x80#8 ++ [0x7F#8, 0x01#8]) 0, _, List.replicate 9 0x80#8, [0x01#8], 0x7F#8, rfl,
      rfl, by decide, rfl, by decide, by decide, by decide⟩⟩

/-- `DecodeConsumesFromRefBuf`. -/
theorem witness_decode_refbuf :
    ∃ (s : State) (r : RefBuf) (bs rest : List Byte),
      s.block = .idle ∧ s.buffer = .refBuf r ∧ readable r = bs ++ rest ∧ accepted bs = true :=
  ⟨idleRefBuf [0x05#8, 0xFF#8] 0, _, [0x05#8], [0xFF#8], rfl, rfl, by decide, by decide⟩

/-- `DecodeIgnoresCommandValue`, `DecodeFrame` and `DecodeReadsAtLeastSizeof`. -/
theorem witness_decode_answers :
    ∃ (s t : State) (v r : Value), exec (.decode v) s = .next t ∧ t.response = some (.ok (some r)) :=
  ⟨idleRefBuf [0xAC#8, 0x02#8] 0, _, 0#32, 300#32, rfl, by decide⟩

/-- `EncodeWritesCanonicalEncoding`, a one-byte and a five-byte value. -/
theorem witness_encode :
    (∃ (s : State) (reads : List ReadAnswer) (writes : List WriteAnswer), s.block = .idle ∧
      s.buffer = .oracle reads (List.replicate (canonicalLength 0#32) .ok ++ writes)) ∧
    (∃ (s : State) (reads : List ReadAnswer) (writes : List WriteAnswer), s.block = .idle ∧
      s.buffer = .oracle reads (List.replicate (canonicalLength 0xFFFFFFFF#32) .ok ++ writes)) :=
  ⟨⟨idleWith (.oracle [] [.ok]), [], [], rfl, by decide⟩,
    ⟨idleWith (.oracle [] (List.replicate 5 .ok)), [], [], rfl, by decide⟩⟩

/-- `EncodeHandsOnWriteFailure` and `EncodeWaitsForSilentBuffer`, at the first and at the fifth write. -/
theorem witness_encode_cut_short :
    (∃ (s : State) (v : Value) (e : FailureToken) (reads : List ReadAnswer) (writes : List WriteAnswer),
      s.block = .idle ∧ 0 < canonicalLength v ∧
      s.buffer = .oracle reads (List.replicate 0 .ok ++ .fail e :: writes)) ∧
    (∃ (s : State) (v : Value) (e : FailureToken) (reads : List ReadAnswer) (writes : List WriteAnswer),
      s.block = .idle ∧ 4 < canonicalLength v ∧
      s.buffer = .oracle reads (List.replicate 4 .ok ++ .fail e :: writes)) ∧
    (∃ (s : State) (v : Value) (reads : List ReadAnswer),
      s.block = .idle ∧ 4 < canonicalLength v ∧ s.buffer = .oracle reads (List.replicate 4 .ok)) :=
  ⟨⟨idleWith (.oracle [] [.fail (.token 9)]), 0#32, .token 9, [], [], rfl, by decide, rfl⟩,
    ⟨idleWith (.oracle [] (List.replicate 4 .ok ++ [.fail (.token 9)])), 0x10000000#32, .token 9, [], [], rfl,
      by decide, rfl⟩,
    ⟨idleWith (.oracle [] (List.replicate 4 .ok)), 0x80000000#32, [], rfl, by decide, rfl⟩⟩

/-- `EncodeOffersPrefixOfItsBytes`: its two premises, over an oracle that answers one write of two. -/
theorem witness_encode_offers :
    ∃ (s : State) (reads : List ReadAnswer) (writes : List WriteAnswer),
      s.block = .idle ∧ s.buffer = .oracle reads writes ∧ writes.length = 1 :=
  ⟨idleWith (.oracle [] [.ok]), [], [.ok], rfl, rfl, rfl⟩

/-- `OperationsKeepNothingFromBefore`: an oracle and a reference buffer that give a DECODE the same answers; two
oracles that give an ENCODE one answer and no more, with different answers to reads. -/
theorem witness_same_answers :
    (∃ (s s' t : State) (buf : Buffer), s.block = .idle ∧ exec (.decode 0#32) s = .next t ∧ t.block = .idle ∧
      s'.block = .idle ∧ s'.buffer ≠ s.buffer ∧ afterAnswering s'.buffer (eventsSince s t) = some buf ∧
      asksNoMore t.block buf = true) ∧
    (∃ (s s' t : State) (buf : Buffer), s.block = .idle ∧ exec (.encode 300#32) s = .next t ∧ t.block ≠ .idle ∧
      s'.block = .idle ∧ s'.buffer ≠ s.buffer ∧ afterAnswering s'.buffer (eventsSince s t) = some buf ∧
      asksNoMore t.block buf = true) :=
  ⟨⟨idleWith (.oracle [.ok 0xAC#8, .ok 0x02#8] []), idleRefBuf [0xAC, 0x02, 0x07] 3, _,
      .refBuf { mem := [(0, 0xAC#8), (1, 0x02#8), (2, 0x07#8)], rpos := 2, wpos := 3, cap := 6,
                underflow := .underflow, overflow := .overflow },
      rfl, rfl, by decide, rfl, by decide, by decide, by decide⟩,
    ⟨idleWith (.oracle [] [.ok]), idleWith (.oracle [.fail .underflow] [.ok]), _, .oracle [.fail .underflow] [],
      rfl, rfl, by decide, rfl, by decide, by decide, by decide⟩⟩

/-- `EncodeStoresIntoRefBuf`, with exactly the room it needs, and `EncodeOverflowLeavesPartialEncoding`, with one byte
less and with none. -/
theorem witness_encode_refbuf :
    (∃ (s : State) (v : Value) (r : RefBuf), s.block = .idle ∧ s.buffer = .refBuf r ∧ Memory.wf r.mem = true ∧
      r.wpos + canonicalLength v = r.cap) ∧
    (∃ (s : State) (v : Value) (r : RefBuf), s.block = .idle ∧ s.buffer = .refBuf r ∧ Memory.wf r.mem = true ∧
      r.wpos + 4 = r.cap ∧ 4 < canonicalLength v) ∧
    (∃ (s : State) (v : Value) (r : RefBuf), s.block = .idle ∧ s.buffer = .refBuf r ∧ Memory.wf r.mem = true ∧
      r.wpos + 0 = r.cap ∧ 0 < canonicalLength v) :=
  ⟨⟨idleRefBuf [0x01#8] 5, 0xFFFFFFFF#32, _, rfl, rfl, by decide, by decide⟩,
    ⟨idleRefBuf [] 4, 0xFFFFFFFF#32, _, rfl, rfl, by decide, by decide, by decide⟩,
    ⟨idleRefBuf [] 0, 0#32, _, rfl, rfl, by decide, by decide, by decide⟩⟩

/-- `EncodeFrame`, `SizeofEqualsBytesEncodeWrites`, `RoundTripOverFaithfulAnswers` and `EncodeIsInjective`: an ENCODE
that succeeded, and a DECODE given its bytes. -/
theorem witness_round_trip :
    ∃ (s t u : State) (v : Value) (bs : List Byte) (reads : List ReadAnswer) (writes : List WriteAnswer),
      exec (.encode v) s = .next t ∧ t.response = some (.ok none) ∧
      eventsSince s t = .command (.encode v) :: writeEvents bs ++ [.response (.ok none)] ∧
      u.block = .idle ∧ u.buffer = .oracle (bs.map .ok ++ reads) writes :=
  ⟨idleWith (.oracle [] [.ok, .ok]), _, idleWith (.oracle [.ok 0xAC#8, .ok 0x02#8] []), 300#32, [0xAC#8, 0x02#8], [], [],
    rfl, rfl, by decide, rfl, rfl⟩

/-- `SizeofAnswersByThresholds`: both ends of each range. -/
theorem witness_thresholds :
    (0#32).toNat < 128 ∧ (127#32).toNat < 128 ∧
    (128 ≤ (128#32).toNat ∧ (128#32).toNat < 16384) ∧ (128 ≤ (16383#32).toNat ∧ (16383#32).toNat < 16384) ∧
    (16384 ≤ (16384#32).toNat ∧ (16384#32).toNat < 2097152) ∧
    (16384 ≤ (2097151#32).toNat ∧ (2097151#32).toNat < 2097152) ∧
    (2097152 ≤ (2097152#32).toNat ∧ (2097152#32).toNat < 268435456) ∧
    (2097152 ≤ (268435455#32).toNat ∧ (268435455#32).toNat < 268435456) ∧
    268435456 ≤ (268435456#32).toNat ∧ 268435456 ≤ (4294967295#32).toNat ∧ State.reset.block = .idle := by decide

/-- `RoundTripThroughRefBuf`. -/
theorem witness_round_trip_refbuf :
    ∃ (s : State) (v w : Value) (r : RefBuf) (rest : List CallerInput),
      s.block = .idle ∧ s.buffer = .refBuf r ∧ Memory.wf r.mem = true ∧ r.rpos = r.wpos ∧
      r.wpos + canonicalLength v ≤ r.cap ∧
      s.caller = .command (encodeCommand (.encode v)) :: .command (encodeCommand (.decode w)) :: rest :=
  ⟨{ idleRefBuf [] 8 with caller := [.command 0x10000012C#34, .command 0#34] }, 300#32, 0#32, _, [], rfl, rfl, by decide,
    rfl, by decide, by decide⟩

/-- `StreamOfEncodingsDecodesInOrder`, two encodings and a byte after them. -/
theorem witness_stream :
    ∃ (s : State) (vs : List Value) (reads : List ReadAnswer) (writes : List WriteAnswer),
      s.block = .idle ∧ s.caller = vs.map (fun v => .command (encodeCommand (.decode v))) ∧
      s.buffer = .oracle ((vs.flatMap canonicalEncoding).map .ok ++ reads) writes ∧ vs.length = 2 :=
  ⟨{ State.reset with caller := [.command 0x00000012C#34, .command 0x000000001#34],
                      buffer := .oracle [.ok 0xAC#8, .ok 0x02#8, .ok 0x01#8, .ok 0x80#8] [] },
    [300#32, 1#32], [.ok 0x80#8], [], rfl, by decide, by decide, rfl⟩

/-- `TransactionsOfEachOperation`, `OneResponseEndsEachOperation` and `StatusesOfEachOperation`: each operation ends
with a response, a DECODE after one read and after ten. -/
theorem witness_operations_end :
    (∃ s t : State, exec (.decode 0#32) s = .next t ∧ t.block = .idle ∧ t.response = some (.ok (some 0#32))) ∧
    (∃ s t : State, exec (.decode 0#32) s = .next t ∧ t.block = .idle ∧
      t.response = some (.error .varintTooLong)) ∧
    (∃ s t : State, exec (.encode 0#32) s = .next t ∧ t.block = .idle ∧ t.response = some (.ok none)) ∧
    (∃ s t : State, exec (.sizeof 0#32) s = .next t ∧ t.block = .idle ∧ t.response = some (.ok (some 1#32))) :=
  ⟨⟨idleWith (.oracle [.ok 0#8] []), _, rfl, by decide, by decide⟩,
    ⟨idleWith (.oracle (List.replicate 10 (.ok 0x80#8)) []), _, rfl, by decide, by decide⟩,
    ⟨idleWith (.oracle [] [.ok]), _, rfl, by decide, by decide⟩, ⟨State.reset, _, rfl, by decide, by decide⟩⟩

/-- `OneResponseEndsEachOperation`, its other two clauses: operations that wait. -/
theorem witness_operations_wait :
    (∃ s t : State, exec (.decode 0#32) s = .next t ∧ t.block = .decoding 0#32 0) ∧
    (∃ s t : State, exec (.encode 128#32) s = .next t ∧ t.block = .encoding 128#32 0) :=
  ⟨⟨State.reset, _, rfl, by decide⟩, ⟨State.reset, _, rfl, by decide⟩⟩

/-- `EveryOperationEndsIfTheBufferAnswers`: both kinds of buffer; a DECODE needs no answers to writes and an ENCODE none
to reads; a SIZEOF needs none at all. -/
theorem witness_buffer_answers :
    (∃ (s : State) (r : RefBuf), s.block = .idle ∧ s.buffer = .refBuf r) ∧
    (∃ (s : State) (reads : List ReadAnswer) (writes : List WriteAnswer), s.block = .idle ∧
      s.buffer = .oracle reads writes ∧ 10 ≤ reads.length ∧ writes = []) ∧
    (∃ (s : State) (reads : List ReadAnswer) (writes : List WriteAnswer), s.block = .idle ∧
      s.buffer = .oracle reads writes ∧ reads = [] ∧ 5 ≤ writes.length) ∧
    State.reset.block = .idle :=
  ⟨⟨idleRefBuf [] 0, _, rfl, rfl⟩,
    ⟨idleWith (.oracle (List.replicate 10 (.ok 0x80#8)) []), List.replicate 10 (.ok 0x80#8), [], rfl, rfl,
      by decide, rfl⟩,
    ⟨idleWith (.oracle [] (List.replicate 5 .ok)), [], List.replicate 5 .ok, rfl, rfl, rfl, by decide⟩, rfl⟩

/-- `EveryTokenTypeIsCovered`, at a type of tokens of one's own: a buffer's messages. -/
theorem witness_token_type : ∃ s : State String, Nonempty String ∧ execAt (.decode 0#32) s =
    .next { s with response := some (.error (.bufferReadFailure "no bytes")), buffer := .oracle [] [],
                   trace := [.command (.decode 0#32), .read (.fail "no bytes"),
                             .response (.error (.bufferReadFailure "no bytes"))] } :=
  ⟨{ block := .idle, response := none, caller := [], buffer := .oracle [.fail "no bytes"] [], trace := [] }, ⟨""⟩, rfl⟩

/-- `LateAnswersChangeNothing`: the first part of the answers ends the operation, or leaves it waiting. -/
theorem witness_late_answers :
    (∃ (s t : State) (reads reads' : List ReadAnswer) (writes writes' : List WriteAnswer), s.block = .idle ∧
      (∀ rest, s.caller ≠ .reset :: rest) ∧
      exec (.decode 0#32) { s with buffer := .oracle reads writes } = .next t ∧ t.buffer = .oracle reads' writes' ∧
      t.block = .idle) ∧
    (∃ (s t : State) (reads reads' : List ReadAnswer) (writes writes' : List WriteAnswer), s.block = .idle ∧
      (∀ rest, s.caller ≠ .reset :: rest) ∧
      exec (.decode 0#32) { s with buffer := .oracle reads writes } = .next t ∧ t.buffer = .oracle reads' writes' ∧
      t.block ≠ .idle) :=
  ⟨⟨State.reset, _, [.ok 5#8], _, [], _, rfl, by simp [State.reset], rfl, rfl, by decide⟩,
    ⟨State.reset, _, [.ok 0x80#8], _, [], _, rfl, by simp [State.reset], rfl, rfl, by decide⟩⟩

/-- `StepRefinesEventLevelMachine` and `StepKeepsInvariant`: a step from a busy block and from an idle one. -/
theorem witness_invariant :
    (∃ s t : State, MachineInv s ∧ s.block ≠ .idle ∧ step s = .next t) ∧
    (∃ s t : State, MachineInv s ∧ s.block = .idle ∧ step s = .next t) :=
  ⟨⟨{ State.reset with block := .encoding 0xF#32 4, buffer := .oracle [] [.ok] }, _,
      ⟨by decide, by decide, fun _ => rfl⟩, by decide, rfl⟩,
    ⟨{ idleRefBuf [] 2 with caller := [.command 0x100000080#34] }, _,
      ⟨by decide, by decide, fun h => absurd rfl h⟩, rfl, rfl⟩⟩

/-- `ResetAbandonsWithoutRollback`. -/
theorem witness_reset :
    ∃ (s : State) (rest : List CallerInput), s.caller = .reset :: rest ∧ s.block ≠ .idle :=
  ⟨{ State.reset with block := .encoding 1#32 1, caller := [.reset] }, [], rfl, by decide⟩

end Sys2Proof.Tests
end

/-! SUPPORT. The machine goes as before when failure tokens are renamed: whole command events and whole steps
(00_scope R6; 60_exceptions R92, R93). -/

namespace Sys2Proof.Safety

open Sys2Proof.Machine

section Renaming

variable {E F : Type} (f : E → F)

theorem runDecode_renameState (s : State E) : runDecode (renameState f s) = renameState f (runDecode s) :=
  iterate_renameState f (decodePass_renameState f) _ s

theorem runEncode_renameState (s : State E) : runEncode (renameState f s) = renameState f (runEncode s) :=
  iterate_renameState f (encodePass_renameState f) _ s

theorem whenIdle_renameState (s t : State E) :
    whenIdle (renameState f s) (renameState f t) = renameOutcome f (whenIdle s t) := by
  cases hb : s.block <;> simp [whenIdle, hb, renameOutcome]

/-- The command event of every operation goes as before with the tokens renamed, its fault too. -/
theorem execAt_renameState (i : Instr) (s : State E) :
    execAt i (renameState f s) = renameOutcome f (execAt i s) := by
  cases i with
  | decode v =>
    simp only [execAt, execDecode, ← whenIdle_renameState, ← runDecode_renameState, renameState_withBlock,
      renameState_accept]
  | encode v =>
    simp only [execAt, execEncode, ← whenIdle_renameState, ← runEncode_renameState, renameState_withBlock,
      renameState_accept]
  | sizeof v =>
    simp only [execAt, execSizeof, complete, ← whenIdle_renameState, renameState_finish, renameState_accept,
      renameResponse]

theorem nextPass_renameState (s : State E) : nextPass (renameState f s) = (nextPass s).map (renameState f) := by
  cases hb : s.block with
  | idle => simp [nextPass, hb]
  | decoding acc idx => simp [nextPass, hb, decodePass_renameState]
  | encoding rem idx => simp [nextPass, hb, encodePass_renameState]

theorem runOperation_renameState (s : State E) :
    runOperation (renameState f s) = renameState f (runOperation s) := by
  cases hb : s.block with
  | idle => simp [runOperation, hb]
  | decoding acc idx => simp [runOperation, hb, runDecode_renameState]
  | encoding rem idx => simp [runOperation, hb, runEncode_renameState]

theorem resume_renameState (s : State E) : resume (renameState f s) = renameOutcome f (resume s) := by
  cases hp : nextPass s <;> simp [resume, nextPass_renameState, runOperation_renameState, hp, renameOutcome]

theorem issueWith_execAt_renameState (w : CommandWord) (rest : List CallerInput) (s : State E) :
    issueWith execAt w rest (renameState f s) = renameOutcome f (issueWith execAt w rest s) := by
  unfold issueWith
  cases decodeCommand w with
  | ok i => exact execAt_renameState f i (s.withCaller rest)
  | error e => cases e; rfl

/-- A step goes as before with the tokens renamed, its faults and its refusal too. -/
theorem stepAt_renameState (s : State E) : stepAt (renameState f s) = renameOutcome f (stepAt s) := by
  cases hc : s.caller with
  | nil =>
    cases hb : s.block <;> simp [stepAt, stepWith, hc, hb, resume_renameState, renameOutcome]
  | cons input rest =>
    cases input with
    | reset =>
      simp [stepAt, stepWith, hc, renameOutcome, renameState_resetBlock, renameState_withCaller]
    | command w =>
      cases hb : s.block <;>
        simp [stepAt, stepWith, hc, hb, resume_renameState, issueWith_execAt_renameState]

end Renaming

theorem execAt_eq_exec (i : Instr) (s : State) : execAt i s = exec i s := by
  cases i <;> rfl

theorem stepAt_eq_step (s : State) : stepAt s = step s := by
  have hrun : execAt = exec := funext₂ execAt_eq_exec
  rw [stepAt, step, hrun]

/-! ### The tokens a state holds, and when it is a renaming of another -/

variable {E F : Type}

/-- The token of a read's answer, if it failed. -/
def readTokens : ReadAnswer E → List E
  | .ok _ => []
  | .fail e => [e]

/-- The token of a write's answer, if it failed. -/
def writeTokens : WriteAnswer E → List E
  | .ok => []
  | .fail e => [e]

/-- The tokens of an event: at most one, in an answer of the buffer or in a response. -/
def eventTokens : Event E → List E
  | .command _ => []
  | .read a => readTokens a
  | .write _ a => writeTokens a
  | .response r => (rspErr r).toList
  | .reset => []

/-- The tokens of a buffer: those of an oracle's answers still to come, or the two a reference buffer fails with. -/
def bufferTokens : Buffer E → List E
  | .oracle reads writes => reads.flatMap readTokens ++ writes.flatMap writeTokens
  | .refBuf r => [r.underflow, r.overflow]

/-- Every token that stands anywhere in a state; they are finitely many at every type of tokens. -/
def stateTokens (s : State E) : List E :=
  (s.response.bind rspErr).toList ++ bufferTokens s.buffer ++ s.trace.flatMap eventTokens

variable {f : E → F}

theorem mem_range_renameRead {a : ReadAnswer F} (h : ∀ e ∈ readTokens a, e ∈ Set.range f) :
    a ∈ Set.range (renameRead f) := by
  cases a with
  | ok b => exact ⟨.ok b, rfl⟩
  | fail e =>
    obtain ⟨e', rfl⟩ := h e (by simp [readTokens])
    exact ⟨.fail e', rfl⟩

theorem mem_range_renameWrite {a : WriteAnswer F} (h : ∀ e ∈ writeTokens a, e ∈ Set.range f) :
    a ∈ Set.range (renameWrite f) := by
  cases a with
  | ok => exact ⟨.ok, rfl⟩
  | fail e =>
    obtain ⟨e', rfl⟩ := h e (by simp [writeTokens])
    exact ⟨.fail e', rfl⟩

theorem mem_range_renameResponse {r : Response F} (h : ∀ e ∈ (rspErr r).toList, e ∈ Set.range f) :
    r ∈ Set.range (renameResponse f) := by
  rcases r with v | _ | e | e
  · exact ⟨.ok v, rfl⟩
  · exact ⟨.error .varintTooLong, rfl⟩
  · obtain ⟨e', rfl⟩ := h e (by simp [rspErr])
    exact ⟨.error (.bufferReadFailure e'), rfl⟩
  · obtain ⟨e', rfl⟩ := h e (by simp [rspErr])
    exact ⟨.error (.bufferWriteFailure e'), rfl⟩

theorem mem_range_renameEvent {ev : Event F} (h : ∀ e ∈ eventTokens ev, e ∈ Set.range f) :
    ev ∈ Set.range (renameEvent f) := by
  cases ev with
  | command i => exact ⟨.command i, rfl⟩
  | read a =>
    obtain ⟨a', rfl⟩ := mem_range_renameRead h
    exact ⟨.read a', rfl⟩
  | write b a =>
    obtain ⟨a', rfl⟩ := mem_range_renameWrite h
    exact ⟨.write b a', rfl⟩
  | response r =>
    obtain ⟨r', rfl⟩ := mem_range_renameResponse h
    exact ⟨.response r', rfl⟩
  | reset => exact ⟨.reset, rfl⟩

/-- A list is a renaming of another where each of its entries is a renaming. -/
theorem mem_range_map_of_tokens {A B : Type} {rename : A → B} {tokens : B → List F} {l : List B}
    (hrename : ∀ b, (∀ e ∈ tokens b, e ∈ Set.range f) → b ∈ Set.range rename)
    (h : ∀ e ∈ l.flatMap tokens, e ∈ Set.range f) : l ∈ Set.range (List.map rename) := by
  rw [Set.range_list_map]
  exact fun b hb => hrename b fun e he => h e (List.mem_flatMap_of_mem hb he)

theorem mem_range_renameBuffer {buf : Buffer F} (h : ∀ e ∈ bufferTokens buf, e ∈ Set.range f) :
    buf ∈ Set.range (renameBuffer f) := by
  cases buf with
  | oracle reads writes =>
    obtain ⟨hreads, hwrites⟩ := List.forall_mem_append.1 h
    obtain ⟨reads', rfl⟩ := mem_range_map_of_tokens (fun _ => mem_range_renameRead) hreads
    obtain ⟨writes', rfl⟩ := mem_range_map_of_tokens (fun _ => mem_range_renameWrite) hwrites
    exact ⟨.oracle reads' writes', rfl⟩
  | refBuf r =>
    obtain ⟨u, hu⟩ := h r.underflow (by simp [bufferTokens])
    obtain ⟨o, ho⟩ := h r.overflow (by simp [bufferTokens])
    exact ⟨.refBuf { r with underflow := u, overflow := o }, by simp [renameBuffer, renameRefBuf, hu, ho]⟩

theorem mem_range_map_renameResponse {r : Option (Response F)}
    (h : ∀ e ∈ (r.bind rspErr).toList, e ∈ Set.range f) : r ∈ Set.range (Option.map (renameResponse f)) := by
  cases r with
  | none => exact ⟨none, rfl⟩
  | some r =>
    obtain ⟨r', rfl⟩ := mem_range_renameResponse h
    exact ⟨some r', rfl⟩

/-- A state is a renaming of another where each of its tokens is a renaming of one. -/
theorem mem_range_renameState {s : State F} (h : ∀ e ∈ stateTokens s, e ∈ Set.range f) :
    s ∈ Set.range (renameState f) := by
  obtain ⟨hports, htrace⟩ := List.forall_mem_append.1 h
  obtain ⟨hresponse, hbuffer⟩ := List.forall_mem_append.1 hports
  obtain ⟨response, hr⟩ := mem_range_map_renameResponse hresponse
  obtain ⟨buffer, hb⟩ := mem_range_renameBuffer hbuffer
  obtain ⟨trace, ht⟩ := mem_range_map_of_tokens (fun _ => mem_range_renameEvent) htrace
  exact ⟨⟨s.block, response, s.caller, buffer, trace⟩, by simp [renameState, hr, hb, ht]⟩

/-! ### Every list of tokens has names at `FailureToken` -/

/-- The renaming by which the numbered token `n` names entry `n` of a list; every other token names `d`. -/
def tokenNamed (tokens : List E) (d : E) : FailureToken → E
  | .token n => tokens.getD n d
  | .underflow => d
  | .overflow => d

theorem mem_range_tokenNamed {tokens : List E} {d e : E} (he : e ∈ tokens) :
    e ∈ Set.range (tokenNamed tokens d) := by
  obtain ⟨n, hn, rfl⟩ := List.getElem_of_mem he
  exact ⟨.token n, List.getD_eq_getElem tokens d hn⟩

/-- Settles O46: the finitely many tokens of a state are named by numbers, and renaming goes through the command
events and the step. -/
theorem everyTokenTypeIsCovered : Obligations.EveryTokenTypeIsCovered := by
  intro E s ⟨d⟩
  obtain ⟨s', hs⟩ : s ∈ Set.range (renameState (tokenNamed (stateTokens s) d)) :=
    mem_range_renameState fun _ => mem_range_tokenNamed
  refine ⟨tokenNamed (stateTokens s) d, s', hs, fun i => ?_, ?_⟩
  · rw [← execAt_eq_exec, ← execAt_renameState, hs]
  · rw [← stepAt_eq_step, ← stepAt_renameState, hs]

end Sys2Proof.Safety

/-! SUPPORT. Every operation as one loop of `nextPass`: what ends it, how to reason about it, and the exact state in
which each command begins it (10_state R18, R19). -/

namespace Sys2Proof.Machine

variable {s t : State}

/-- The pass of a busy block is the pass of its operation. -/
theorem nextPass_eq_some : nextPass s = some t ↔ decodePass s = some t ∨ encodePass s = some t := by
  cases hb : s.block <;> simp [nextPass, decodePass, encodePass, hb]

theorem nextPass_eq_none : nextPass s = none ↔ decodePass s = none ∧ encodePass s = none := by
  cases hb : s.block <;> simp [nextPass, decodePass, encodePass, hb]

theorem nextPass_of_idle (h : s.block = .idle) : nextPass s = none := by
  simp [nextPass, h]

/-- An operation that has no pass left has ended or waits for a silent buffer. -/
theorem nextPass_eq_none_iff_asksNoMore : nextPass s = none ↔ Safety.asksNoMore s.block s.buffer = true := by
  cases hb : s.block with
  | idle => simp [nextPass, hb, Safety.asksNoMore]
  | decoding acc idx => simp [nextPass_eq_none, decodePass_eq_none, encodePass_eq_none, hb, Safety.asksNoMore_decoding]
  | encoding rem idx =>
    simp [nextPass_eq_none, decodePass_eq_none, encodePass_eq_none, hb, Safety.asksNoMore_encoding 0#8,
      Buffer.writeByte_eq_none]

/-! ### The loop of an operation ends within its fuel -/

/-- How many passes an operation in this condition can still take. -/
def passesLeft (s : State) : Nat :=
  match s.block with
  | .idle => 0
  | .decoding _ idx => 9 - idx + 1
  | .encoding rem _ => groupsLeft rem

theorem passesLeft_pos (h : nextPass s ≠ none) : 0 < passesLeft s := by
  cases hb : s.block with
  | idle => exact absurd (nextPass_of_idle hb) h
  | decoding acc idx => simp [passesLeft, hb]
  | encoding rem idx =>
    simp only [passesLeft, hb]
    exact groupsLeft_pos rem

theorem passesLeft_decreases (s t : State) (h : nextPass s = some t) (ht : nextPass t ≠ none) :
    passesLeft t < passesLeft s := by
  have hbusy : t.block ≠ .idle := fun hidle => ht (nextPass_of_idle hidle)
  rcases nextPass_eq_some.1 h with h | h
  · obtain ⟨acc, idx, a, buf, hb, -, h⟩ := decodePass_cases h
    rcases h with ⟨e, -, rfl⟩ | ⟨b, -, -, rfl⟩ | ⟨b, -, -, -, rfl⟩ | ⟨b, -, -, hidx, rfl⟩
    · exact absurd rfl hbusy
    · exact absurd rfl hbusy
    · exact absurd rfl hbusy
    · simp only [passesLeft, hb, State.withBlock_block]
      omega
  · obtain ⟨rem, idx, a, buf, hb, -, h⟩ := encodePass_cases h
    rcases h with ⟨e, -, rfl⟩ | ⟨-, -, rfl⟩ | ⟨-, hm, rfl⟩
    · exact absurd rfl hbusy
    · exact absurd rfl hbusy
    · have := groupsLeft_lsr32 hm
      simp only [passesLeft, hb, State.withBlock_block]
      omega

theorem nextPass_iterate {n : Nat} (h : passesLeft s ≤ n) : nextPass (iterate nextPass n s) = none :=
  iterate_exhausts passesLeft_decreases (fun _ => passesLeft_pos) n h

/-- Loops over passes that agree where the loop goes are the same. -/
theorem iterate_congr {pass pass' : State → Option State} {P : State → Prop}
    (hpass : ∀ s t, P s → pass s = some t → P t) (heq : ∀ s, P s → pass s = pass' s) (n : Nat) (hs : P s) :
    iterate pass n s = iterate pass' n s := by
  induction n generalizing s with
  | zero => rfl
  | succ n ih =>
    have hss := heq s hs
    cases h : pass s with
    | none => rw [iterate_of_none h, iterate_of_none (hss ▸ h)]
    | some t => rw [iterate_of_some h, iterate_of_some (hss ▸ h), ih (hpass s t hs h)]

theorem iterate_decodePass_eq {acc : Value} {idx : Nat} (hb : s.block = .decoding acc idx) (n : Nat) :
    iterate decodePass n s = iterate nextPass n s := by
  refine iterate_congr (P := fun s => ∀ rem idx, s.block ≠ .encoding rem idx) ?_ ?_ n (by simp [hb])
  · intro s t _ h
    obtain ⟨acc, idx, a, buf, -, -, h⟩ := decodePass_cases h
    rcases h with ⟨e, -, rfl⟩ | ⟨b, -, -, rfl⟩ | ⟨b, -, -, -, rfl⟩ | ⟨b, -, -, -, rfl⟩ <;> simp
  · intro s hs
    cases hb : s.block <;> simp_all [nextPass, decodePass]

theorem iterate_encodePass_eq {rem : Value} {idx : Nat} (hb : s.block = .encoding rem idx) (n : Nat) :
    iterate encodePass n s = iterate nextPass n s := by
  refine iterate_congr (P := fun s => ∀ acc idx, s.block ≠ .decoding acc idx) ?_ ?_ n (by simp [hb])
  · intro s t _ h
    obtain ⟨rem, idx, a, buf, -, -, h⟩ := encodePass_cases h
    rcases h with ⟨e, -, rfl⟩ | ⟨-, -, rfl⟩ | ⟨-, -, rfl⟩ <;> simp
  · intro s hs
    cases hb : s.block <;> simp_all [nextPass, encodePass]

/-- The operation in progress, whichever it is, is one loop. -/
theorem runOperation_eq_iterate (s : State) : runOperation s = iterate nextPass 10 s := by
  cases hb : s.block with
  | idle => rw [iterate_of_none (nextPass_of_idle hb)]; simp [runOperation, hb]
  | decoding acc idx => simpa [runOperation, hb, runDecode] using iterate_decodePass_eq hb 10
  | encoding rem idx =>
    have hstop : nextPass (iterate nextPass 5 s) = none :=
      nextPass_iterate (by simpa [passesLeft, hb] using groupsLeft_le rem)
    rw [iterate_add nextPass 5 5, iterate_of_none hstop]
    simpa [runOperation, hb, runEncode] using iterate_encodePass_eq hb 5

/-- An operation runs until no pass is left. -/
theorem nextPass_runOperation (s : State) : nextPass (runOperation s) = none := by
  rw [runOperation_eq_iterate]
  refine nextPass_iterate ?_
  cases hb : s.block with
  | idle => simp [passesLeft, hb]
  | decoding acc idx => simp only [passesLeft, hb]; omega
  | encoding rem idx => simpa [passesLeft, hb] using (groupsLeft_le rem).trans (by decide)

theorem runOperation_of_none (h : nextPass s = none) : runOperation s = s := by
  rw [runOperation_eq_iterate, iterate_of_none h]

/-- Running an operation from after one of its passes is running it. -/
theorem runOperation_of_some (h : nextPass s = some t) : runOperation s = runOperation t := by
  have hstop := nextPass_runOperation s
  rw [runOperation_eq_iterate] at hstop
  calc runOperation s = iterate nextPass 1 (iterate nextPass 10 s) := by
        rw [runOperation_eq_iterate, iterate_of_none hstop]
    _ = iterate nextPass 10 (iterate nextPass 1 s) := by rw [← iterate_add, ← iterate_add]
    _ = runOperation t := by rw [iterate_of_some h, iterate_zero, runOperation_eq_iterate]

/-- What every pass keeps, the operation in progress keeps. -/
theorem runOperation_induction {P : State → Prop} (hpass : ∀ s t, P s → nextPass s = some t → P t) (hs : P s) :
    P (runOperation s) := by
  rw [runOperation_eq_iterate]
  exact iterate_induction hpass 10 hs

/-! ### Where an operation begins, and what a step can do -/

/-- The state in which a command has been accepted: the operation's loop begins here, or has ended (SIZEOF). -/
def begun (i : Instr) (s : State) : State :=
  match i with
  | .decode v => (accept (.decode v) s).withBlock (.decoding 0#32 0)
  | .encode v => (accept (.encode v) s).withBlock (.encoding v 0)
  | .sizeof v => finish (.ok (some (BitVec.ofNat 32 (sizeOfValue v)))) (accept (.sizeof v) s)

@[simp] theorem begun_caller (i : Instr) (s : State) : (begun i s).caller = s.caller := by cases i <;> rfl

@[simp] theorem begun_buffer (i : Instr) (s : State) : (begun i s).buffer = s.buffer := by cases i <;> rfl

/-- A command of an idle block begins its operation and runs it. -/
theorem exec_of_idle (i : Instr) (h : s.block = .idle) : exec i s = .next (runOperation (begun i s)) := by
  cases i <;> exact whenIdle_of_idle _ h

theorem exec_eq_next {i : Instr} : exec i s = .next t ↔ s.block = .idle ∧ runOperation (begun i s) = t := by
  cases i <;> exact whenIdle_eq_next

theorem resume_of_none (h : nextPass s = none) : resume s = .fault .bufferDoesNotAnswer := by
  simp [resume, h]

theorem resume_of_some (h : nextPass s = some t) : resume s = .next (runOperation s) := by
  simp [resume, h]

/-- Everything a step that goes on can do, the operations run by their one loop. -/
theorem step_eq_next_cases (h : step s = .next t) :
    (∃ rest, s.caller = .reset :: rest ∧ t = resetBlock (s.withCaller rest)) ∨
    (∃ rest i, s.block = .idle ∧ t = runOperation (begun i (s.withCaller rest))) ∨
    t = runOperation s := by
  rcases step_cases h with hreset | ⟨w, rest, i, -, hidle, -, h⟩ | ⟨-, -, h⟩
  · exact .inl hreset
  · exact .inr (.inl ⟨rest, i, hidle, (exec_eq_next.1 h).2.symm⟩)
  · cases hp : nextPass s with
    | none => simp [resume_of_none hp] at h
    | some u =>
      rw [resume_of_some hp] at h
      cases h
      exact .inr (.inr rfl)

/-- What reset, the beginning of a command, and every pass keep, every step keeps. -/
theorem step_induction {P : State → Prop}
    (hreset : ∀ rest, P (resetBlock (s.withCaller rest)))
    (hbegun : ∀ rest i, s.block = .idle → P (begun i (s.withCaller rest)))
    (hpass : ∀ u v, P u → nextPass u = some v → P v) (hs : P s) (h : step s = .next t) : P t := by
  rcases step_eq_next_cases h with ⟨rest, -, rfl⟩ | ⟨rest, i, hidle, rfl⟩ | rfl
  · exact hreset rest
  · exact runOperation_induction hpass (hbegun rest i hidle)
  · exact runOperation_induction hpass hs

/-- A busy block whose caller does not reset goes on with its operation. -/
theorem step_of_busy (hbusy : s.block ≠ .idle) (hc : ∀ rest, s.caller ≠ .reset :: rest) : step s = resume s := by
  rcases hcaller : s.caller with _ | ⟨_ | _, rest⟩
  · cases hb : s.block <;> simp_all [step, stepWith]
  · cases hb : s.block <;> simp_all [step, stepWith]
  · exact absurd hcaller (hc rest)

end Sys2Proof.Machine

/-! SUPPORT. The registers' ranges (10_state R11 to R13, 40_decode R62, 41_encode R71), and the invariant and reset
(10_state R20 to R22). -/

namespace Sys2Proof.Safety

open Sys2Proof.Machine

/-! ### The registers' ranges -/

theorem blockLegal_decoding {acc : Value} {idx : Nat} :
    blockLegal (.decoding acc idx) = true ↔ idx ≤ 9 ∧ acc.toNat < 2 ^ (7 * idx) := by
  simp [blockLegal]

theorem blockLegal_encoding {rem : Value} {idx : Nat} :
    blockLegal (.encoding rem idx) = true ↔
      idx ≤ 4 ∧ rem.toNat < 2 ^ (32 - 7 * idx) ∧ (idx = 0 ∨ rem ≠ 0#32) := by
  simp [blockLegal, and_assoc]

/-- A byte absorbed keeps `ACC` below the place of the group after it. -/
theorem absorb_toNat_lt {acc : Value} {idx : Nat} (b : Byte) (hacc : acc.toNat < 2 ^ (7 * idx)) :
    (absorb acc idx b).toNat < 2 ^ (7 * (idx + 1)) := by
  have hplace : 2 ^ (7 * (idx + 1)) = 128 * 2 ^ (7 * idx) := by ring
  rcases Nat.lt_or_ge idx 5 with hidx | hidx
  · have hgroup : b.toNat % 128 * 2 ^ (7 * idx) ≤ 127 * 2 ^ (7 * idx) := Nat.mul_le_mul_right _ (by omega)
    rw [absorb_eq_add b hidx hacc, BitVec.toNat_ofNat]
    refine (Nat.mod_le _ _).trans_lt ?_
    omega
  · rw [absorb_of_ge b hidx]
    omega

theorem blockLegal_absorb {acc : Value} {idx : Nat} (b : Byte) (h : blockLegal (.decoding acc idx) = true)
    (hidx : idx < 9) : blockLegal (.decoding (absorb acc idx b) (idx + 1)) = true :=
  blockLegal_decoding.2 ⟨hidx, absorb_toNat_lt b (blockLegal_decoding.1 h).2⟩

/-- `REM` shifted after a byte that says more follow is not 0, and its byte was not the fifth. -/
theorem blockLegal_lsr32 {rem : Value} {idx : Nat} (h : blockLegal (.encoding rem idx) = true)
    (hmore : moreGroups rem = true) : blockLegal (.encoding (lsr32 rem 7) (idx + 1)) = true := by
  obtain ⟨hidx, hrem, -⟩ := blockLegal_encoding.1 h
  rw [moreGroups_iff] at hmore
  have hshift : (lsr32 rem 7).toNat = rem.toNat / 128 := lsr32_toNat rem 7
  have hlt : idx < 4 := by
    by_contra hge
    obtain rfl : idx = 4 := by omega
    norm_num at hrem
    omega
  have hplace : 2 ^ (32 - 7 * idx) = 128 * 2 ^ (32 - 7 * (idx + 1)) := by
    rw [show 32 - 7 * idx = 32 - 7 * (idx + 1) + 7 by omega]
    ring
  refine blockLegal_encoding.2 ⟨hlt, ?_, .inr fun hzero => ?_⟩
  · rw [hshift]
    omega
  · rw [hzero, BitVec.toNat_ofNat] at hshift
    omega

/-! ### The buffer's form -/

theorem bufferLegal_refBuf {r : RefBuf} :
    bufferLegal (.refBuf r) = true ↔ r.rpos ≤ r.wpos ∧ r.wpos ≤ r.cap ∧ Memory.wf r.mem = true := by
  simp [bufferLegal, and_assoc]

theorem bufferLegal_readByte {buf buf' : Buffer} {a : ReadAnswer} (h : bufferLegal buf = true)
    (hr : buf.readByte = some (a, buf')) : bufferLegal buf' = true := by
  rcases Buffer.readByte_cases hr with ⟨rs, ws, -, rfl⟩ | ⟨r, rfl, hlt, -, rfl⟩ | ⟨r, rfl, -, -, rfl⟩
  · rfl
  · obtain ⟨-, hcap, hwf⟩ := bufferLegal_refBuf.1 h
    exact bufferLegal_refBuf.2 ⟨hlt, hcap, hwf⟩
  · exact h

theorem bufferLegal_writeByte {buf buf' : Buffer} {b : Byte} {a : WriteAnswer} (h : bufferLegal buf = true)
    (hw : buf.writeByte b = some (a, buf')) : bufferLegal buf' = true := by
  rcases Buffer.writeByte_cases hw with ⟨rs, ws, -, rfl⟩ | ⟨r, rfl, hlt, -, rfl⟩ | ⟨r, rfl, -, -, rfl⟩
  · rfl
  · obtain ⟨hpos, -, hwf⟩ := bufferLegal_refBuf.1 h
    exact bufferLegal_refBuf.2 ⟨hpos.trans (Nat.le_succ _), hlt, Memory.wf_write _ _ hwf⟩
  · exact h

/-! ### The invariant -/

/-- An idle block meets the invariant whatever response stands on the port. -/
theorem machineInv_of_idle {s : State} (hidle : s.block = .idle) (hbuf : bufferLegal s.buffer = true) :
    MachineInv s :=
  ⟨by rw [hidle]; rfl, hbuf, fun hbusy => absurd hidle hbusy⟩

theorem machineInv_begun (i : Instr) {s : State} (hbuf : bufferLegal s.buffer = true) : MachineInv (begun i s) := by
  cases i with
  | decode v => exact ⟨blockLegal_decoding.2 ⟨by decide, by decide⟩, hbuf, fun _ => rfl⟩
  | encode v => exact ⟨blockLegal_encoding.2 ⟨by decide, v.isLt, .inl rfl⟩, hbuf, fun _ => rfl⟩
  | sizeof v => exact machineInv_of_idle rfl hbuf

theorem machineInv_nextPass {s t : State} (hinv : MachineInv s) (h : nextPass s = some t) : MachineInv t := by
  obtain ⟨hblock, hbuf, hport⟩ := hinv
  rcases nextPass_eq_some.1 h with h | h
  · obtain ⟨acc, idx, a, buf, hb, hr, h⟩ := decodePass_cases h
    have hbuf' : bufferLegal buf = true := bufferLegal_readByte hbuf hr
    rw [hb] at hblock
    rcases h with ⟨e, -, rfl⟩ | ⟨b, -, -, rfl⟩ | ⟨b, -, -, -, rfl⟩ | ⟨b, -, -, hidx, rfl⟩
    · exact machineInv_of_idle rfl hbuf'
    · exact machineInv_of_idle rfl hbuf'
    · exact machineInv_of_idle rfl hbuf'
    · exact ⟨blockLegal_absorb b hblock hidx, hbuf', fun _ => hport (by simp [hb])⟩
  · obtain ⟨rem, idx, a, buf, hb, hw, h⟩ := encodePass_cases h
    have hbuf' : bufferLegal buf = true := bufferLegal_writeByte hbuf hw
    rw [hb] at hblock
    rcases h with ⟨e, -, rfl⟩ | ⟨-, -, rfl⟩ | ⟨-, hm, rfl⟩
    · exact machineInv_of_idle rfl hbuf'
    · exact machineInv_of_idle rfl hbuf'
    · exact ⟨blockLegal_lsr32 hblock hm, hbuf', fun _ => hport (by simp [hb])⟩

/-- Settles O44: reset and the beginning of a command establish the invariant, and every pass keeps it. -/
theorem stepKeepsInvariant : Obligations.StepKeepsInvariant := by
  intro s t hinv h
  have ⟨_, hbuf, _⟩ := hinv
  exact step_induction (fun _ => machineInv_of_idle rfl hbuf) (fun _ i _ => machineInv_begun i hbuf)
    (fun _ _ => machineInv_nextPass) hinv h

/-! ### Reset -/

/-- Settles O42: reset is the step of a block in any condition whose caller applies it. -/
theorem resetAbandonsWithoutRollback : Obligations.ResetAbandonsWithoutRollback := by
  intro s rest hc
  cases hb : s.block <;> simp only [step, stepWith, hc, hb] <;> rfl

/-- Settles O43. -/
theorem resetStateIsIdle : Obligations.ResetStateIsIdle :=
  ⟨rfl, rfl, rfl, rfl⟩

/-- Settles O45: an idle block, before a buffer that is an oracle. -/
theorem resetMeetsInvariant : Obligations.ResetMeetsInvariant :=
  machineInv_of_idle rfl rfl

end Sys2Proof.Safety

/-! SUPPORT. The event-level machine (10_state R19, 92 D1), and the passes of the model as runs of it. -/

namespace Sys2Proof.Safety

open Sys2Proof.Machine

theorem Phase.run_append (p : Phase) (es es' : List Event) :
    p.run (es ++ es') = (p.run es).bind fun q => q.run es' := by
  induction es generalizing p with
  | nil => rfl
  | cons e es ih => cases h : p.after e <;> simp [Phase.run, h, ih]

theorem Phase.run_singleton (p : Phase) (e : Event) : p.run [e] = p.after e := by
  cases h : p.after e <;> simp [Phase.run, h]

/-- A transaction or command that leads to a response, and that response, lead to the idle condition. -/
theorem Phase.run_answered {p : Phase} {e : Event} {r : Response} (h : p.after e = some (.answering r)) :
    p.run [e, .response r] = some .idle := by
  have hresponse : (Phase.answering r).after (.response r) = some .idle := if_pos rfl
  simp [Phase.run, h, hresponse]

/-! ### The transactions of the event-level machine, by what the model computes -/

/-- The byte absorbed, in the spec's arithmetic. -/
theorem absorb_eq_ite {acc : Value} {idx : Nat} (b : Byte) (hacc : acc.toNat < 2 ^ (7 * idx)) :
    absorb acc idx b =
      if idx < 5 then BitVec.ofNat 32 (acc.toNat + b.toNat % 128 * 2 ^ (7 * idx)) else acc := by
  split
  next hidx => exact absorb_eq_add b hidx hacc
  next hidx => exact absorb_of_ge b (Nat.not_lt.1 hidx)

theorem after_read_terminator {acc : Value} {idx : Nat} {b : Byte} (h : blockLegal (.decoding acc idx) = true)
    (hc : contBit b = false) :
    (Phase.decoding acc idx).after (.read (.ok b)) = some (.answering (.ok (some (absorb acc idx b)))) := by
  have hlt : b.toNat < 128 := by simpa [hc] using contBit_iff b
  simp [Phase.after, hlt, absorb_eq_ite b (blockLegal_decoding.1 h).2]

theorem after_read_tenth {acc : Value} {idx : Nat} {b : Byte} (h : blockLegal (.decoding acc idx) = true)
    (hc : contBit b = true) (hidx : 9 ≤ idx) :
    (Phase.decoding acc idx).after (.read (.ok b)) = some (.answering (.error .varintTooLong)) := by
  have hge : ¬ b.toNat < 128 := Nat.not_lt.2 ((contBit_iff b).1 hc)
  obtain rfl : idx = 9 := le_antisymm (blockLegal_decoding.1 h).1 hidx
  simp [Phase.after, hge]

theorem after_read_more {acc : Value} {idx : Nat} {b : Byte} (h : blockLegal (.decoding acc idx) = true)
    (hc : contBit b = true) (hidx : idx < 9) :
    (Phase.decoding acc idx).after (.read (.ok b)) = some (.decoding (absorb acc idx b) (idx + 1)) := by
  have hge : ¬ b.toNat < 128 := Nat.not_lt.2 ((contBit_iff b).1 hc)
  have hne : ¬ idx + 1 = 10 := by omega
  simp [Phase.after, hge, hne, absorb_eq_ite b (blockLegal_decoding.1 h).2]

/-- A write that fails ends ENCODE, whether its byte was the last or not. -/
theorem after_write_fail (rem : Value) (idx : Nat) (e : FailureToken) :
    (Phase.encoding rem idx).after (.write (outByte rem) (.fail e)) =
      some (.answering (.error (.bufferWriteFailure e))) := by
  have hmore := moreGroups_iff rem
  by_cases hm : moreGroups rem = true
  · have hge : ¬ rem.toNat < 128 := Nat.not_lt.2 (hmore.1 hm)
    simp [Phase.after, hge, outByte_toNat, hm]
  · have hlt : rem.toNat < 128 := by simpa [hm] using hmore
    simp [Phase.after, hlt, outByte_toNat, hm, Nat.mod_eq_of_lt]

theorem after_write_last {rem : Value} (idx : Nat) (hm : moreGroups rem = false) :
    (Phase.encoding rem idx).after (.write (outByte rem) .ok) = some (.answering (.ok none)) := by
  have hlt : rem.toNat < 128 := by simpa [hm] using moreGroups_iff rem
  simp [Phase.after, hlt, outByte_toNat, hm, Nat.mod_eq_of_lt]

theorem after_write_more {rem : Value} (idx : Nat) (hm : moreGroups rem = true) :
    (Phase.encoding rem idx).after (.write (outByte rem) .ok) = some (.encoding (lsr32 rem 7) (idx + 1)) := by
  have hge : ¬ rem.toNat < 128 := Nat.not_lt.2 ((moreGroups_iff rem).1 hm)
  have hshift : BitVec.ofNat 32 (rem.toNat / 128) = lsr32 rem 7 := by
    rw [show rem.toNat / 128 = (lsr32 rem 7).toNat from (lsr32_toNat rem 7).symm, BitVec.ofNat_toNat,
      BitVec.setWidth_eq]
  simp [Phase.after, hge, outByte_toNat, hm, hshift]

/-- SIZEOF's thresholds are those of the canonical length (30_encoding R42, 42_sizeof R80 to R82). -/
theorem sizeOfValue_eq_canonicalLength (v : Value) : sizeOfValue v = canonicalLength v := by
  have hfits : v.toNat < 34359738368 := v.isLt.trans (by norm_num)
  rw [sizeOfValue_eq]
  split_ifs <;> simp [canonicalLength, List.find?, *]

/-! ### Refinement -/

/-- The events from `s` to `t` are allowed one after another, and lead from the condition of `s` to that of `t`. -/
def Refines (s t : State) : Prop :=
  ∃ es, t.trace = s.trace ++ es ∧ (phaseOf s.block).run es = some (phaseOf t.block)

theorem Refines.refl (s : State) : Refines s s := ⟨[], by simp, rfl⟩

theorem Refines.trans {s t u : State} (hst : Refines s t) (htu : Refines t u) : Refines s u := by
  obtain ⟨es, hes, hrun⟩ := hst
  obtain ⟨es', hes', hrun'⟩ := htu
  exact ⟨es ++ es', by rw [hes', hes, List.append_assoc], by rw [Phase.run_append, hrun, Option.bind_some, hrun']⟩

theorem refines_resetBlock (s : State) : Refines s (resetBlock s) :=
  ⟨[.reset], rfl, by rw [Phase.run_singleton]; cases s.block <;> rfl⟩

theorem refines_begun (i : Instr) {s : State} (hidle : s.block = .idle) : Refines s (begun i s) := by
  unfold Refines
  rw [hidle]
  cases i with
  | decode v => exact ⟨[.command (.decode v)], rfl, rfl⟩
  | encode v => exact ⟨[.command (.encode v)], rfl, rfl⟩
  | sizeof v =>
    refine ⟨[.command (.sizeof v), .response _], List.append_assoc _ _ _, Phase.run_answered ?_⟩
    rw [sizeOfValue_eq_canonicalLength]
    rfl

theorem refines_nextPass {s t : State} (hinv : MachineInv s) (h : nextPass s = some t) : Refines s t := by
  obtain ⟨hblock, -, -⟩ := hinv
  unfold Refines
  rcases nextPass_eq_some.1 h with h | h
  · obtain ⟨acc, idx, a, buf, hb, -, h⟩ := decodePass_cases h
    rw [hb] at hblock ⊢
    rcases h with ⟨e, rfl, rfl⟩ | ⟨b, rfl, hc, rfl⟩ | ⟨b, rfl, hc, hidx, rfl⟩ | ⟨b, rfl, hc, hidx, rfl⟩
    · exact ⟨[.read _, .response _], List.append_assoc _ _ _, Phase.run_answered rfl⟩
    · exact ⟨[.read _, .response _], List.append_assoc _ _ _, Phase.run_answered (after_read_terminator hblock hc)⟩
    · exact ⟨[.read _, .response _], List.append_assoc _ _ _, Phase.run_answered (after_read_tenth hblock hc hidx)⟩
    · exact ⟨[.read _], rfl, (Phase.run_singleton _ _).trans (after_read_more hblock hc hidx)⟩
  · obtain ⟨rem, idx, a, buf, hb, -, h⟩ := encodePass_cases h
    rw [hb]
    rcases h with ⟨e, rfl, rfl⟩ | ⟨rfl, hm, rfl⟩ | ⟨rfl, hm, rfl⟩
    · exact ⟨[.write _ _, .response _], List.append_assoc _ _ _, Phase.run_answered (after_write_fail rem idx e)⟩
    · exact ⟨[.write _ _, .response _], List.append_assoc _ _ _, Phase.run_answered (after_write_last idx hm)⟩
    · exact ⟨[.write _ _], rfl, (Phase.run_singleton _ _).trans (after_write_more idx hm)⟩

/-- Settles O41: reset, the beginning of a command, and every pass from a state that meets the invariant refine the
event-level machine, and refinements compose. -/
theorem stepRefinesEventLevelMachine : Obligations.StepRefinesEventLevelMachine := by
  intro s t hinv h
  have ⟨_, hbuf, _⟩ := hinv
  have hboth : MachineInv t ∧ Refines s t :=
    step_induction (P := fun u => MachineInv u ∧ Refines s u)
      (fun rest => ⟨machineInv_of_idle rfl hbuf, refines_resetBlock (s.withCaller rest)⟩)
      (fun rest i hidle => ⟨machineInv_begun i hbuf, refines_begun i (s := s.withCaller rest) hidle⟩)
      (fun u v hu hp => ⟨machineInv_nextPass hu.1 hp, hu.2.trans (refines_nextPass hu.1 hp)⟩)
      ⟨hinv, Refines.refl s⟩ h
  exact hboth.2

end Sys2Proof.Safety

/-! SUPPORT. An operation is a function of its command and of the buffer's answers (10_state R10, 60_exceptions R101):
it runs the same behind any record and before any caller, and over every buffer that gives the same answers. -/

namespace Sys2Proof.Safety

open Sys2Proof.Machine

/-! ### The caller's inputs and the earlier record play no part -/

/-- The state `u` with the caller's inputs of `s`, its events recorded after those of `s`. -/
def behind (s u : State) : State := { u with caller := s.caller, trace := s.trace ++ u.trace }

theorem behind_withBuffer_record (s u : State) (buf : Buffer) (e : Event) :
    ((behind s u).withBuffer buf).record e = behind s ((u.withBuffer buf).record e) := by
  simp [behind, State.withBuffer, State.record]

theorem behind_finish (s u : State) (r : Response) : finish r (behind s u) = behind s (finish r u) := by
  simp [behind, finish, State.withBlock, State.withResponse, State.record]

theorem behind_withBlock (s u : State) (b : Block) : (behind s u).withBlock b = behind s (u.withBlock b) := rfl

theorem nextPass_behind (s : State) {u v : State} (h : nextPass u = some v) :
    nextPass (behind s u) = some (behind s v) := by
  rcases nextPass_eq_some.1 h with h | h
  · refine nextPass_eq_some.2 (.inl ?_)
    obtain ⟨acc, idx, a, buf, hb, hr, h⟩ := decodePass_cases h
    rcases h with ⟨e, rfl, rfl⟩ | ⟨b, rfl, hc, rfl⟩ | ⟨b, rfl, hc, hidx, rfl⟩ | ⟨b, rfl, hc, hidx, rfl⟩
    · rw [decodePass_fail (s := behind s u) hb hr, behind_withBuffer_record, behind_finish]
    · rw [decodePass_terminator (s := behind s u) hb hr hc, behind_withBuffer_record, behind_finish]
    · rw [decodePass_tenth (s := behind s u) hb hr hc hidx, behind_withBuffer_record, behind_finish]
    · rw [decodePass_more (s := behind s u) hb hr hc hidx, behind_withBuffer_record, behind_withBlock]
  · refine nextPass_eq_some.2 (.inr ?_)
    obtain ⟨rem, idx, a, buf, hb, hw, h⟩ := encodePass_cases h
    rcases h with ⟨e, rfl, rfl⟩ | ⟨rfl, hm, rfl⟩ | ⟨rfl, hm, rfl⟩
    · rw [encodePass_fail (s := behind s u) hb hw, behind_withBuffer_record, behind_finish]
    · rw [encodePass_last (s := behind s u) hb hw hm, behind_withBuffer_record, behind_finish]
    · rw [encodePass_more (s := behind s u) hb hw hm, behind_withBuffer_record, behind_withBlock]

theorem nextPass_behind_eq_none (s u : State) : nextPass (behind s u) = none ↔ nextPass u = none := by
  rw [nextPass_eq_none_iff_asksNoMore, nextPass_eq_none_iff_asksNoMore]
  rfl

theorem runOperation_behind (s u : State) : runOperation (behind s u) = behind s (runOperation u) := by
  have hreached : runOperation (behind s u) = runOperation (behind s (runOperation u)) :=
    runOperation_induction (P := fun v => runOperation (behind s u) = runOperation (behind s v))
      (fun v w hv hp => hv.trans (runOperation_of_some (nextPass_behind s hp))) rfl
  rw [hreached]
  exact runOperation_of_none ((nextPass_behind_eq_none _ _).2 (nextPass_runOperation u))

/-- An idle block before this buffer, with nothing recorded and no caller. -/
def alone (buf : Buffer) : State := { State.reset with buffer := buf }

/-- What an operation does to a buffer: the state it leaves, with the operation's own events recorded. -/
def ran (i : Instr) (buf : Buffer) : State := runOperation (begun i (alone buf))

theorem begun_eq_behind (i : Instr) {s : State} (hidle : s.block = .idle) :
    begun i s = behind s (begun i (alone s.buffer)) := by
  obtain ⟨block, response, caller, buffer, trace⟩ := s
  obtain rfl : block = .idle := hidle
  cases i <;>
    simp [begun, behind, alone, State.reset, accept, finish, State.withBlock, State.withResponse, State.record]

/-- An operation depends on the state it begins in by its buffer alone. -/
theorem exec_eq_ran (i : Instr) {s : State} (hidle : s.block = .idle) :
    exec i s = .next (behind s (ran i s.buffer)) := by
  rw [exec_of_idle i hidle, begun_eq_behind i hidle, runOperation_behind]
  rfl

theorem exec_withBuffer_eq_ran (i : Instr) {s : State} (hidle : s.block = .idle) (buf : Buffer) :
    exec i { s with buffer := buf } = .next (behind s (ran i buf)) :=
  exec_eq_ran i (s := { s with buffer := buf }) hidle

/-- An operation leaves a state with no pass left: it has ended, or its buffer is silent. -/
theorem nextPass_ran (i : Instr) (buf : Buffer) : nextPass (ran i buf) = none := nextPass_runOperation _

/-! ### Buffers that give the same answers -/

/-- A pass of either operation records what its buffer answers, and does the same over every buffer that answers so. -/
theorem nextPass_over {s t : State} (h : nextPass s = some t) :
    ∃ es, t.trace = s.trace ++ es ∧ afterAnswering s.buffer es = some t.buffer ∧
      ∀ buf buf', afterAnswering buf es = some buf' →
        nextPass { s with buffer := buf } = some { t with buffer := buf' } := by
  rcases nextPass_eq_some.1 h with h | h
  · obtain ⟨es, htrace, hanswers, hover⟩ := decodePass_over h
    exact ⟨es, htrace, hanswers, fun _ _ hs => nextPass_eq_some.2 (.inl (hover _ _ hs))⟩
  · obtain ⟨es, htrace, hanswers, hover⟩ := encodePass_over h
    exact ⟨es, htrace, hanswers, fun _ _ hs => nextPass_eq_some.2 (.inr (hover _ _ hs))⟩

/-- The operation in `s` comes to `t` by the answers of its buffer, and comes to `t` over every buffer that gives
them: run over such a buffer, it goes on from `t` and what that buffer then is. -/
def ComesTo (s t : State) : Prop :=
  ∃ es, t.trace = s.trace ++ es ∧ afterAnswering s.buffer es = some t.buffer ∧
    ∀ buf buf', afterAnswering buf es = some buf' →
      runOperation { s with buffer := buf } = runOperation { t with buffer := buf' }

theorem ComesTo.refl (s : State) : ComesTo s s :=
  ⟨[], by simp, rfl, fun _ _ hs => by cases hs; rfl⟩

theorem ComesTo.nextPass {s t u : State} (hst : ComesTo s t) (h : nextPass t = some u) : ComesTo s u := by
  obtain ⟨es, htrace, hanswers, hover⟩ := hst
  obtain ⟨es', htrace', hanswers', hover'⟩ := nextPass_over h
  refine ⟨es ++ es', by rw [htrace', htrace, List.append_assoc], ?_, fun buf buf' hs => ?_⟩
  · rw [afterAnswering_append, hanswers, Option.bind_some, hanswers']
  · rw [afterAnswering_append, Option.bind_eq_some_iff] at hs
    obtain ⟨mid, hmid, hs⟩ := hs
    rw [hover buf mid hmid, runOperation_of_some (hover' mid buf' hs)]

theorem comesTo_runOperation (s : State) : ComesTo s (runOperation s) :=
  runOperation_induction (fun _ _ => ComesTo.nextPass) (ComesTo.refl s)

/-- The command and SIZEOF's response ask nothing of a buffer. -/
theorem afterAnswering_begun_append (i : Instr) (buf buf' : Buffer) (es : List Event) :
    afterAnswering buf ((begun i (alone buf')).trace ++ es) = afterAnswering buf es := by
  cases i <;> rfl

theorem ran_trace_answered (i : Instr) (buf : Buffer) :
    afterAnswering buf (ran i buf).trace = some (ran i buf).buffer := by
  obtain ⟨es, htrace, hanswers, -⟩ := comesTo_runOperation (begun i (alone buf))
  rw [begun_buffer] at hanswers
  rw [ran, htrace, afterAnswering_begun_append]
  exact hanswers

/-- Over a buffer that gives the answers recorded, an operation goes on from where it came to with them. -/
theorem ran_eq_of_answers (i : Instr) {buf buf' buf'' : Buffer}
    (h : afterAnswering buf' (ran i buf).trace = some buf'') :
    ran i buf' = runOperation { ran i buf with buffer := buf'' } := by
  obtain ⟨es, htrace, -, hover⟩ := comesTo_runOperation (begun i (alone buf))
  rw [ran, htrace, afterAnswering_begun_append] at h
  have hbegun : begun i (alone buf') = { begun i (alone buf) with buffer := buf' } := by cases i <;> rfl
  rw [ran, hbegun]
  exact hover buf' buf'' h

/-- Settles O38: an operation depends on the state it begins in by its buffer alone, and on its buffer by the answers
it gives. -/
theorem operationsKeepNothingFromBefore : Obligations.OperationsKeepNothingFromBefore := by
  intro i s hidle
  have hsilent : asksNoMore (ran i s.buffer).block (ran i s.buffer).buffer = true :=
    nextPass_eq_none_iff_asksNoMore.1 (nextPass_ran i s.buffer)
  refine ⟨behind s (ran i s.buffer), (ran i s.buffer).trace, exec_eq_ran i hidle, rfl, rfl,
    ran_trace_answered i s.buffer, hsilent, ?_⟩
  intro s' buf hidle' hanswers hstop
  have hsame : ran i s'.buffer = { ran i s.buffer with buffer := buf } := by
    rw [ran_eq_of_answers i hanswers]
    exact runOperation_of_none (nextPass_eq_none_iff_asksNoMore.2 hstop)
  rw [exec_eq_ran i hidle', hsame]
  rfl

/-! ### Answers that arrive late -/

/-- An oracle with further answers behind gives the same answers first. -/
theorem afterAnswering_oracle_append {reads reads' : List ReadAnswer} {writes writes' : List WriteAnswer}
    {es : List Event} (h : afterAnswering (.oracle reads writes) es = some (.oracle reads' writes'))
    (more : List ReadAnswer) (more' : List WriteAnswer) :
    afterAnswering (.oracle (reads ++ more) (writes ++ more')) es =
      some (.oracle (reads' ++ more) (writes' ++ more')) := by
  induction es generalizing reads writes with
  | nil => cases h; rfl
  | cons e es ih =>
    cases e with
    | command i => exact ih h
    | response r => exact ih h
    | reset => exact ih h
    | read a =>
      obtain ⟨mid, hr, h⟩ := afterAnswering_read.1 h
      cases reads with
      | nil => cases hr
      | cons a' reads => cases hr; exact afterAnswering_read.2 ⟨_, rfl, ih h⟩
    | write b a =>
      obtain ⟨mid, hw, h⟩ := afterAnswering_write.1 h
      cases writes with
      | nil => cases hw
      | cons a' writes => cases hw; exact afterAnswering_write.2 ⟨_, rfl, ih h⟩

/-- Settles O40: with all the answers there, the operation goes on from where it came to with the first of them, and
that is what a step does once the rest is there. -/
theorem lateAnswersChangeNothing : Obligations.LateAnswersChangeNothing := by
  intro i s t reads reads' more writes writes' more' hidle hc h hbuf full later
  obtain rfl : t = behind s (ran i (.oracle reads writes)) := by
    rw [exec_withBuffer_eq_ran i hidle] at h
    cases h
    rfl
  have hanswers := ran_trace_answered i (.oracle reads writes)
  rw [show (ran i (.oracle reads writes)).buffer = _ from hbuf] at hanswers
  have hfull : exec i full = .next (runOperation later) := by
    rw [exec_withBuffer_eq_ran i hidle, ran_eq_of_answers i (afterAnswering_oracle_append hanswers more more'),
      ← runOperation_behind]
    rfl
  refine ⟨fun hended => ?_, fun hbusy => ?_⟩
  · rw [hfull, runOperation_of_none (s := later) (nextPass_of_idle hended)]
  · have hstep : step later = resume later := step_of_busy hbusy hc
    cases hp : nextPass later with
    | none =>
      refine .inl ⟨?_, hstep.trans (resume_of_none hp)⟩
      rw [hfull, runOperation_of_none hp]
    | some u => exact .inr (by rw [hfull, hstep, resume_of_some hp])

end Sys2Proof.Safety

/-! SUPPORT. What DECODE and ENCODE leave unchanged (10_state R17, 20_memory R23), and where DECODE waits (60_exceptions
R95). -/

namespace Sys2Proof.Safety

open Sys2Proof.Machine

/-! ### Caller and record -/

/-- From `s` to `t` the caller's inputs stay, and only transactions of one kind and responses are recorded. -/
def OnlyRecords (isTransaction : Event → Bool) (s t : State) : Prop :=
  t.caller = s.caller ∧ ∃ es, t.trace = s.trace ++ es ∧ ∀ e ∈ es, isTransaction e = true ∨ isResponse e = true

theorem OnlyRecords.refl {isTransaction : Event → Bool} (s : State) : OnlyRecords isTransaction s s :=
  ⟨rfl, [], by simp, by simp⟩

theorem OnlyRecords.trans {isTransaction : Event → Bool} {s t u : State} (hst : OnlyRecords isTransaction s t)
    (htu : OnlyRecords isTransaction t u) : OnlyRecords isTransaction s u := by
  obtain ⟨hc, es, htrace, hes⟩ := hst
  obtain ⟨hc', es', htrace', hes'⟩ := htu
  exact ⟨hc'.trans hc, es ++ es', by rw [htrace', htrace, List.append_assoc], List.forall_mem_append.2 ⟨hes, hes'⟩⟩

theorem onlyRecords_transaction {isTransaction : Event → Bool} {e : Event} (he : isTransaction e = true) (s : State)
    (buf : Buffer) : OnlyRecords isTransaction s ((s.withBuffer buf).record e) :=
  ⟨rfl, [e], rfl, by simp [he]⟩

theorem onlyRecords_finish {isTransaction : Event → Bool} (r : Response) (s : State) :
    OnlyRecords isTransaction s (finish r s) :=
  ⟨rfl, [.response r], rfl, by simp [isResponse]⟩

/-- One pass of DECODE: one read of the buffer, and reads and a response in the record. -/
theorem decodePass_records {s t : State} (h : decodePass s = some t) :
    OnlyRecords isRead s t ∧ ∃ a, s.buffer.readByte = some (a, t.buffer) := by
  obtain ⟨acc, idx, a, buf, -, hr, h⟩ := decodePass_cases h
  have hread : OnlyRecords isRead s ((s.withBuffer buf).record (.read a)) := onlyRecords_transaction rfl s buf
  rcases h with ⟨e, -, rfl⟩ | ⟨b, -, -, rfl⟩ | ⟨b, -, -, -, rfl⟩ | ⟨b, -, -, -, rfl⟩
  · exact ⟨hread.trans (onlyRecords_finish _ _), a, hr⟩
  · exact ⟨hread.trans (onlyRecords_finish _ _), a, hr⟩
  · exact ⟨hread.trans (onlyRecords_finish _ _), a, hr⟩
  · exact ⟨hread, a, hr⟩

/-- One pass of ENCODE: one write to the buffer, and writes and a response in the record. -/
theorem encodePass_records {s t : State} (h : encodePass s = some t) :
    OnlyRecords isWrite s t ∧ ∃ b a, s.buffer.writeByte b = some (a, t.buffer) := by
  obtain ⟨rem, idx, a, buf, -, hw, h⟩ := encodePass_cases h
  have hwrite : OnlyRecords isWrite s ((s.withBuffer buf).record (.write (outByte rem) a)) :=
    onlyRecords_transaction rfl s buf
  rcases h with ⟨e, -, rfl⟩ | ⟨-, -, rfl⟩ | ⟨-, -, rfl⟩
  · exact ⟨hwrite.trans (onlyRecords_finish _ _), _, a, hw⟩
  · exact ⟨hwrite.trans (onlyRecords_finish _ _), _, a, hw⟩
  · exact ⟨hwrite, _, a, hw⟩

/-! ### The buffer -/

/-- What at most `k` reads do to a buffer: an oracle keeps its answers to writes, and the reference buffer's read
position alone moves. -/
def ReadsChange (k : Nat) (buf buf' : Buffer) : Prop :=
  (∀ reads writes, buf = .oracle reads writes → ∃ reads', buf' = .oracle reads' writes) ∧
  (∀ r, buf = .refBuf r → ∃ n, n ≤ k ∧ buf' = .refBuf { r with rpos := r.rpos + n })

/-- What at most `k` writes do to a buffer: an oracle keeps its answers to reads, and the reference buffer's bytes
change only between its write position and the place that moves to. -/
def WritesChange (k : Nat) (buf buf' : Buffer) : Prop :=
  (∀ reads writes, buf = .oracle reads writes → ∃ writes', buf' = .oracle reads writes') ∧
  (∀ r, buf = .refBuf r → ∃ mem n, n ≤ k ∧ buf' = .refBuf { r with mem := mem, wpos := r.wpos + n } ∧
    ∀ a, a < r.wpos ∨ r.wpos + n ≤ a → Memory.read mem a = Memory.read r.mem a)

theorem ReadsChange.refl (buf : Buffer) : ReadsChange 0 buf buf :=
  ⟨fun reads _ h => ⟨reads, h⟩, fun _ h => ⟨0, le_rfl, h⟩⟩

theorem WritesChange.refl (buf : Buffer) : WritesChange 0 buf buf :=
  ⟨fun _ writes h => ⟨writes, h⟩, fun r h => ⟨r.mem, 0, le_rfl, h, fun _ _ => rfl⟩⟩

theorem ReadsChange.mono {j k : Nat} (hjk : j ≤ k) {buf buf' : Buffer} (h : ReadsChange j buf buf') :
    ReadsChange k buf buf' := by
  refine ⟨h.1, fun r hr => ?_⟩
  obtain ⟨n, hn, hbuf⟩ := h.2 r hr
  exact ⟨n, hn.trans hjk, hbuf⟩

theorem WritesChange.mono {j k : Nat} (hjk : j ≤ k) {buf buf' : Buffer} (h : WritesChange j buf buf') :
    WritesChange k buf buf' := by
  refine ⟨h.1, fun r hr => ?_⟩
  obtain ⟨mem, n, hn, hbuf⟩ := h.2 r hr
  exact ⟨mem, n, hn.trans hjk, hbuf⟩

theorem ReadsChange.readByte {k : Nat} {buf mid buf' : Buffer} {a : ReadAnswer} (h : ReadsChange k buf mid)
    (hr : mid.readByte = some (a, buf')) : ReadsChange (k + 1) buf buf' := by
  refine ⟨fun reads writes hbuf => ?_, fun r hbuf => ?_⟩
  · obtain ⟨reads', rfl⟩ := h.1 reads writes hbuf
    cases reads' with
    | nil => cases hr
    | cons a' reads' => cases hr; exact ⟨reads', rfl⟩
  · obtain ⟨n, hn, rfl⟩ := h.2 r hbuf
    rcases Buffer.readByte_cases hr with ⟨_, _, hmid, -⟩ | ⟨_, hmid, -, -, rfl⟩ | ⟨_, hmid, -, -, rfl⟩
    · cases hmid
    · cases hmid
      exact ⟨n + 1, by omega, rfl⟩
    · cases hmid
      exact ⟨n, by omega, rfl⟩

theorem WritesChange.writeByte {k : Nat} {buf mid buf' : Buffer} {b : Byte} {a : WriteAnswer}
    (h : WritesChange k buf mid) (hw : mid.writeByte b = some (a, buf')) : WritesChange (k + 1) buf buf' := by
  refine ⟨fun reads writes hbuf => ?_, fun r hbuf => ?_⟩
  · obtain ⟨writes', rfl⟩ := h.1 reads writes hbuf
    cases writes' with
    | nil => cases hw
    | cons a' writes' => cases hw; exact ⟨writes', rfl⟩
  · obtain ⟨mem, n, hn, rfl, hmem⟩ := h.2 r hbuf
    rcases Buffer.writeByte_cases hw with ⟨_, _, hmid, -⟩ | ⟨_, hmid, -, -, rfl⟩ | ⟨_, hmid, -, -, rfl⟩
    · cases hmid
    · cases hmid
      refine ⟨_, n + 1, by omega, rfl, fun i hi => ?_⟩
      rw [Memory.read_write_other mem b (a := r.wpos + n) (a' := i) (by omega)]
      exact hmem i (by omega)
    · cases hmid
      exact ⟨mem, n, by omega, rfl, hmem⟩

/-- Reads store nothing. -/
theorem ReadsChange.memory_eq {k : Nat} {buf buf' : Buffer} (h : ReadsChange k buf buf') :
    buf'.memory = buf.memory := by
  cases buf with
  | oracle reads writes =>
    obtain ⟨reads', rfl⟩ := h.1 reads writes rfl
    rfl
  | refBuf r =>
    obtain ⟨n, -, rfl⟩ := h.2 r rfl
    rfl

/-! ### The loops -/

/-- A bound that every pass raises by one, a loop raises by at most its fuel. -/
theorem iterate_induction_counted {pass : State → Option State} {P : Nat → State → Prop}
    (hpass : ∀ k s t, P k s → pass s = some t → P (k + 1) t) (hmono : ∀ j k s, j ≤ k → P j s → P k s) (n : Nat)
    {k : Nat} {s : State} (hs : P k s) : P (k + n) (iterate pass n s) := by
  induction n generalizing k s with
  | zero => exact hs
  | succ n ih =>
    cases h : pass s with
    | none =>
      rw [iterate_of_none h]
      exact hmono _ _ _ (Nat.le_add_right _ _) hs
    | some t =>
      rw [iterate_of_some h, ← Nat.add_assoc, Nat.add_right_comm]
      exact ih (hpass k s t hs h)

theorem iterate_decodePass_records (n : Nat) (s : State) :
    OnlyRecords isRead s (iterate decodePass n s) ∧ ReadsChange n s.buffer (iterate decodePass n s).buffer := by
  refine ⟨iterate_induction (fun _ _ hs h => hs.trans (decodePass_records h).1) n (OnlyRecords.refl s), ?_⟩
  have h := iterate_induction_counted (pass := decodePass) (P := fun k u => ReadsChange k s.buffer u.buffer)
    (fun _ _ _ hs h => (decodePass_records h).2.elim fun _ hr => hs.readByte hr)
    (fun _ _ _ hjk => ReadsChange.mono hjk) n (ReadsChange.refl s.buffer)
  rwa [Nat.zero_add] at h

theorem iterate_encodePass_records (n : Nat) (s : State) :
    OnlyRecords isWrite s (iterate encodePass n s) ∧ WritesChange n s.buffer (iterate encodePass n s).buffer := by
  refine ⟨iterate_induction (fun _ _ hs h => hs.trans (encodePass_records h).1) n (OnlyRecords.refl s), ?_⟩
  have h := iterate_induction_counted (pass := encodePass) (P := fun k u => WritesChange k s.buffer u.buffer)
    (fun _ _ _ hs h => (encodePass_records h).2.elim fun _ ⟨_, hw⟩ => hs.writeByte hw)
    (fun _ _ _ hjk => WritesChange.mono hjk) n (WritesChange.refl s.buffer)
  rwa [Nat.zero_add] at h

/-- Settles O18: a DECODE is at most ten passes, each of one read. -/
theorem decodeFrame : Obligations.DecodeFrame := by
  intro s t v h
  obtain ⟨-, rfl⟩ := execDecode_cases h
  obtain ⟨⟨hcaller, es, htrace, hes⟩, hbuf⟩ :=
    iterate_decodePass_records 10 ((accept (.decode v) s).withBlock (.decoding 0#32 0))
  refine ⟨hcaller, ⟨es, by rw [htrace]; exact List.append_assoc _ _ _, hes⟩, fun a => ?_, hbuf.1, hbuf.2⟩
  rw [hbuf.memory_eq]
  rfl

/-- Settles O25: an ENCODE is at most five passes, each of one write. -/
theorem encodeFrame : Obligations.EncodeFrame := by
  intro s t v h
  obtain ⟨-, rfl⟩ := execEncode_cases h
  obtain ⟨⟨hcaller, es, htrace, hes⟩, hbuf⟩ :=
    iterate_encodePass_records 5 ((accept (.encode v) s).withBlock (.encoding v 0))
  exact ⟨hcaller, ⟨es, by rw [htrace]; exact List.append_assoc _ _ _, hes⟩, hbuf.1, hbuf.2⟩

/-! ### The accumulator is the value of the bytes so far -/

theorem continues_eq_contBit (b : Byte) : continues b = contBit b := by
  rw [Bool.eq_iff_iff, contBit_iff]
  simp [continues]

theorem absorbAll_concat (bs : List Byte) (b : Byte) :
    absorbAll 0#32 0 (bs ++ [b]) = absorb (absorbAll 0#32 0 bs) bs.length b := by
  simp [absorbAll_append, absorbAll]

theorem absorbAll_toNat_lt (bs : List Byte) : (absorbAll 0#32 0 bs).toNat < 2 ^ (7 * bs.length) := by
  induction bs using List.reverseRecOn with
  | nil => decide
  | append_singleton bs b ih =>
    rw [absorbAll_concat, List.length_append, List.length_singleton]
    exact absorb_toNat_lt b ih

theorem assembled_concat_of_lt (bs : List Byte) (b : Byte) (hlen : bs.length < 5) :
    assembled (bs ++ [b]) = BitVec.ofNat 32 ((assembled bs).toNat + b.toNat % 128 * 2 ^ (7 * bs.length)) := by
  have htake : bs.take 5 = bs := List.take_of_length_le hlen.le
  have htake' : (bs ++ [b]).take 5 = bs ++ [b] := List.take_of_length_le (by simpa using hlen)
  apply BitVec.eq_of_toNat_eq
  simp [assembled, htake, htake', List.mapIdx_append]

theorem assembled_concat_of_ge (bs : List Byte) (b : Byte) (hlen : 5 ≤ bs.length) :
    assembled (bs ++ [b]) = assembled bs := by
  rw [assembled, assembled, List.take_append_of_le_length hlen]

/-- `ACC` after these bytes, from the first one on, is the value of 30_encoding R43. -/
theorem absorbAll_eq_assembled (bs : List Byte) : absorbAll 0#32 0 bs = assembled bs := by
  induction bs using List.reverseRecOn with
  | nil => rfl
  | append_singleton bs b ih =>
    rw [absorbAll_concat]
    rcases Nat.lt_or_ge bs.length 5 with hlen | hlen
    · rw [absorb_eq_add b hlen (absorbAll_toNat_lt bs), assembled_concat_of_lt bs b hlen, ih]
    · rw [absorb_of_ge b hlen, assembled_concat_of_ge bs b hlen, ih]

/-- DECODE over a buffer whose first bytes all say more follow, short of the tenth, comes to the condition of R11 and
R13 before the rest of its passes. -/
theorem execDecode_of_serves {s : State} (v : Value) {bs : List Byte} {n : Nat} {buf : Buffer}
    (hidle : s.block = .idle) (hs : serves s.buffer bs buf) (hc : bs.all continues = true)
    (hn : bs.length + (n + 1) = 10) :
    exec (.decode v) s =
      .next (iterate decodePass (n + 1)
        (waiting s (.decoding (assembled bs) bs.length) buf (.command (.decode v) :: readEvents bs))) := by
  have hbits : ∀ b ∈ bs, contBit b = true := fun b hb => by
    rw [← continues_eq_contBit]
    exact List.all_eq_true.1 hc b hb
  calc exec (.decode v) s
    _ = .next (iterate decodePass 10 ((accept (.decode v) s).withBlock (.decoding 0#32 0))) := whenIdle_of_idle _ hidle
    _ = _ := by
      rw [← hn, iterate_decodePass_more (n + 1) (State.withBlock_block (accept (.decode v) s) _) hs hbits
        (by omega), absorbAll_eq_assembled]
      simp [waiting, accept, State.withBlock, State.withResponse, State.record, readEvents]

/-- Settles O13: after the bytes the oracle has, no pass is left. -/
theorem decodeWaitsForSilentBuffer : Obligations.DecodeWaitsForSilentBuffer := by
  intro s v bs writes hidle hbuf hlen hc
  have hserves : serves s.buffer bs (.oracle [] writes) := by
    simpa [hbuf] using serves_oracle bs ([] : List ReadAnswer) writes
  rw [execDecode_of_serves (n := 9 - bs.length) v hidle hserves hc (by omega),
    iterate_of_none (decodePass_eq_none.2 (.inr rfl))]

end Sys2Proof.Safety

/-! SUPPORT. How DECODE ends, over any buffer, by the bytes the buffer serves (40_decode R63, R65, R68), and which bytes
the reference buffer serves (20_memory R39). -/

namespace Sys2Proof.Safety

open Sys2Proof.Machine

/-! ### The bytes a buffer serves -/

/-- A buffer serves two strings in a row by serving the first and then the second. -/
theorem serves_append {buf buf' : Buffer} {bs cs : List Byte} :
    serves buf (bs ++ cs) buf' ↔ ∃ mid, serves buf bs mid ∧ serves mid cs buf' := by
  induction bs generalizing buf with
  | nil => simp [serves]
  | cons b bs ih =>
    simp only [List.cons_append, serves, ih]
    tauto

theorem serves_concat {buf buf' : Buffer} {bs : List Byte} {b : Byte} :
    serves buf (bs ++ [b]) buf' ↔ ∃ mid, serves buf bs mid ∧ mid.readByte = some (.ok b, buf') := by
  simp [serves_append, serves]

theorem readable_length (r : RefBuf) : (readable r).length = r.wpos - r.rpos := by
  simp [readable]

theorem readable_getElem? {r : RefBuf} {i : Nat} (hi : i < r.wpos - r.rpos) :
    (readable r)[i]? = some (Memory.read r.mem (r.rpos + i)) := by
  simp [readable, hi]

/-- The reference buffer serves its readable bytes from the first one on. -/
theorem serves_of_readable {r : RefBuf} {bs rest : List Byte} (h : readable r = bs ++ rest) :
    serves (.refBuf r) bs (.refBuf { r with rpos := r.rpos + bs.length }) := by
  have hlen : r.wpos - r.rpos = bs.length + rest.length := by rw [← readable_length, h, List.length_append]
  obtain rfl | hne := eq_or_ne bs []
  · rfl
  have hpos : 0 < bs.length := List.length_pos_of_ne_nil hne
  refine serves_refBuf r bs (by omega) fun i hi => Option.some.inj ?_
  rw [← readable_getElem? (by omega), h, List.getElem?_append_left hi, List.getElem?_eq_getElem hi]

/-! ### Accepted strings -/

/-- A string is accepted exactly if it is at most nine bytes that say more follow and then a terminator. -/
theorem accepted_concat {bs : List Byte} {b : Byte} :
    accepted (bs ++ [b]) = true ↔ bs.length ≤ 9 ∧ bs.all continues = true ∧ continues b = false := by
  simp [accepted, Nat.lt_succ_iff, and_assoc]

/-! ### The three ways a DECODE ends -/

/-- The value of the bytes up to a byte absorbed is the value with it. -/
theorem absorb_assembled (bs : List Byte) (b : Byte) :
    absorb (assembled bs) bs.length b = assembled (bs ++ [b]) := by
  rw [← absorbAll_eq_assembled, ← absorbAll_eq_assembled, absorbAll_concat]

/-- The events of a DECODE that has read these bytes and ends. -/
theorem finish_waiting (s : State) (blk : Block) (buf buf' : Buffer) (es : List Event) (e : Event) (r : Response) :
    finish r (((waiting s blk buf es).withBuffer buf').record e) = ended s r buf' (es ++ [e, .response r]) := by
  simp [waiting, ended, finish, State.withBlock, State.withResponse, State.withBuffer, State.record]

/-- A DECODE whose loop comes to a pass that ends it has ended there. -/
theorem execDecode_of_last_pass {s t : State} (v : Value) {bs : List Byte} {buf : Buffer} (hidle : s.block = .idle)
    (hs : serves s.buffer bs buf) (hc : bs.all continues = true) (hlen : bs.length ≤ 9)
    (hpass : decodePass
      (waiting s (.decoding (assembled bs) bs.length) buf (.command (.decode v) :: readEvents bs)) = some t)
    (ht : t.block = .idle) : exec (.decode v) s = .next t := by
  rw [execDecode_of_serves (n := 9 - bs.length) v hidle hs hc (by omega), iterate_of_some hpass,
    iterate_of_none (decodePass_eq_none.2 (.inl (by simp [ht])))]

theorem execDecode_of_readFailure {s : State} (v : Value) {bs : List Byte} {e : FailureToken} {buf buf' : Buffer}
    (hidle : s.block = .idle) (hs : serves s.buffer bs buf) (hc : bs.all continues = true) (hlen : bs.length ≤ 9)
    (hr : buf.readByte = some (.fail e, buf')) :
    exec (.decode v) s =
      .next (ended s (.error (.bufferReadFailure e)) buf'
        (.command (.decode v) :: readEvents bs ++
          [.read (.fail e), .response (.error (.bufferReadFailure e))])) := by
  refine execDecode_of_last_pass v hidle hs hc hlen ?_ rfl
  rw [decodePass_fail rfl hr, finish_waiting]

theorem execDecode_of_tenContinuationBytes {s : State} (v : Value) {bs : List Byte} {buf : Buffer}
    (hidle : s.block = .idle) (hs : serves s.buffer bs buf) (hlen : bs.length = 10) (hc : bs.all continues = true) :
    exec (.decode v) s =
      .next (ended s (.error .varintTooLong) buf
        (.command (.decode v) :: readEvents bs ++ [.response (.error .varintTooLong)])) := by
  obtain rfl | ⟨init, last, rfl⟩ := List.eq_nil_or_concat' bs
  · cases hlen
  have hnine : init.length = 9 := by simpa using hlen
  obtain ⟨hinit, hlast⟩ : init.all continues = true ∧ continues last = true := by simpa using hc
  obtain ⟨mid, hs, hr⟩ := serves_concat.1 hs
  refine execDecode_of_last_pass v hidle hs hinit hnine.le ?_ rfl
  rw [decodePass_tenth rfl hr (by rwa [← continues_eq_contBit]) hnine.ge, finish_waiting]
  simp [readEvents]

theorem execDecode_of_accepted {s : State} (v : Value) {bs : List Byte} {buf : Buffer} (hidle : s.block = .idle)
    (hs : serves s.buffer bs buf) (hbs : accepted bs = true) :
    exec (.decode v) s =
      .next (ended s (.ok (some (assembled bs))) buf
        (.command (.decode v) :: readEvents bs ++ [.response (.ok (some (assembled bs)))])) := by
  obtain rfl | ⟨init, last, rfl⟩ := List.eq_nil_or_concat' bs
  · cases hbs
  obtain ⟨hlen, hc, hlast⟩ := accepted_concat.1 hbs
  obtain ⟨mid, hs, hr⟩ := serves_concat.1 hs
  refine execDecode_of_last_pass v hidle hs hc hlen ?_ rfl
  rw [decodePass_terminator rfl hr (by rwa [← continues_eq_contBit]), finish_waiting, absorb_assembled]
  simp [readEvents]

/-- Settles O16: the reference buffer serves the accepted string, and ends up past it. -/
theorem decodeConsumesFromRefBuf : Obligations.DecodeConsumesFromRefBuf := by
  intro s v r bs rest hidle hbuf hread hbs
  exact execDecode_of_accepted v hidle (hbuf ▸ serves_of_readable hread) hbs

/-- Settles O15: the reference buffer serves all its readable bytes and then underflows, or it serves ten, of which the
last decides. -/
theorem tenthReadDecidesOverRefBuf : Obligations.TenthReadDecidesOverRefBuf := by
  intro s v r bs rest b hidle hbuf hpos hlen hc
  have hserves {cs rest : List Byte} (h : readable r = cs ++ rest) :
      serves s.buffer cs (.refBuf { r with rpos := r.rpos + cs.length }) := hbuf ▸ serves_of_readable h
  refine ⟨fun hread => ?_, fun hread hnine hb => ?_, fun hread hnine hb => ?_⟩
  · have hall := hserves (hread.trans (List.append_nil bs).symm)
    have hend : r.rpos + bs.length = r.wpos := by
      rw [← hread, readable_length]
      omega
    rw [hend] at hall
    exact execDecode_of_readFailure v hidle hall hc hlen (Buffer.readByte_refBuf_of_ge le_rfl)
  all_goals
    have hten : (bs ++ [b]).length = 10 := by simp [hnine]
    have hfirst := hserves (hread.trans (List.append_cons bs b rest))
    rw [hten] at hfirst
  · exact execDecode_of_tenContinuationBytes v hidle hfirst hten (by simpa [hb] using hc)
  · exact execDecode_of_accepted v hidle hfirst (accepted_concat.2 ⟨hlen, hc, hb⟩)

end Sys2Proof.Safety

/-! SUPPORT. How many transactions an operation issues (20_memory R23, 70_reset_and_hazards R121). -/

namespace Sys2Proof.Safety

open Sys2Proof.Machine

theorem eventsSince_of_append {s t : State} {es : List Event} (h : t.trace = s.trace ++ es) : eventsSince s t = es := by
  rw [eventsSince, h, List.drop_left]

theorem decodePass_countP_isRead {s t : State} (h : decodePass s = some t) :
    t.trace.countP isRead = s.trace.countP isRead + 1 := by
  obtain ⟨acc, idx, a, buf, -, -, h⟩ := decodePass_cases h
  rcases h with ⟨e, -, rfl⟩ | ⟨b, -, -, rfl⟩ | ⟨b, -, -, -, rfl⟩ | ⟨b, -, -, -, rfl⟩ <;>
    simp [isRead, List.countP_cons]

theorem encodePass_countP_isWrite {s t : State} (h : encodePass s = some t) :
    t.trace.countP isWrite = s.trace.countP isWrite + 1 := by
  obtain ⟨rem, idx, a, buf, -, -, h⟩ := encodePass_cases h
  rcases h with ⟨e, -, rfl⟩ | ⟨-, -, rfl⟩ | ⟨-, -, rfl⟩ <;> simp [isWrite, List.countP_cons]

/-- A loop of which every pass records one transaction has recorded one for each pass it took. -/
theorem iterate_countP {pass : State → Option State} {isTransaction : Event → Bool}
    (hpass : ∀ s t, pass s = some t → t.trace.countP isTransaction = s.trace.countP isTransaction + 1) (n : Nat)
    (s : State) :
    ∃ k, k ≤ n ∧ (iterate pass n s).trace.countP isTransaction = s.trace.countP isTransaction + k ∧
      (k = 0 → iterate pass n s = s) := by
  induction n generalizing s with
  | zero => exact ⟨0, le_rfl, rfl, fun _ => rfl⟩
  | succ n ih =>
    cases h : pass s with
    | none => exact ⟨0, by omega, by rw [iterate_of_none h]; rfl, fun _ => iterate_of_none h _⟩
    | some t =>
      obtain ⟨k, hk, hcount, -⟩ := ih t
      refine ⟨k + 1, by omega, ?_, by omega⟩
      rw [iterate_of_some h, hcount, hpass s t h]
      omega

/-- A loop that begins busy and ends idle took a pass: so it records at least one transaction, and at most as many as
it has fuel for, those before it not counted. -/
theorem countP_of_iterate_ended {pass : State → Option State} {isTransaction : Event → Bool} {s : State} {n : Nat}
    {before es : List Event}
    (hpass : ∀ s t, pass s = some t → t.trace.countP isTransaction = s.trace.countP isTransaction + 1)
    (hbusy : s.block ≠ .idle) (hended : (iterate pass n s).block = .idle)
    (hbefore : s.trace.countP isTransaction = before.countP isTransaction)
    (htrace : (iterate pass n s).trace = before ++ es) :
    1 ≤ es.countP isTransaction ∧ es.countP isTransaction ≤ n := by
  obtain ⟨k, hk, hcount, hzero⟩ := iterate_countP hpass n s
  have hpos : k ≠ 0 := fun h => hbusy (hzero h ▸ hended)
  rw [htrace, List.countP_append] at hcount
  omega

/-- A record of one kind of transaction and responses holds no transaction of the other kind. -/
theorem countP_eq_zero_of_records {isOther isTransaction : Event → Bool} {es : List Event}
    (hes : ∀ e ∈ es, isTransaction e = true ∨ isResponse e = true)
    (hother : ∀ e, isOther e = true → isTransaction e = false ∧ isResponse e = false) : es.countP isOther = 0 := by
  refine List.countP_eq_zero.2 fun e he h => ?_
  obtain ⟨htransaction, hresponse⟩ := hother e h
  simpa [htransaction, hresponse] using hes e he

theorem isWrite_excludes (e : Event) (h : isWrite e = true) : isRead e = false ∧ isResponse e = false := by
  cases e with
  | write b a => exact ⟨rfl, rfl⟩
  | _ => cases h

theorem isRead_excludes (e : Event) (h : isRead e = true) : isWrite e = false ∧ isResponse e = false := by
  cases e with
  | read a => exact ⟨rfl, rfl⟩
  | _ => cases h

/-- Settles O33: DECODE's loop has at most ten passes, each of one read, and ENCODE's five, each of one write; by their
frames they record no other transaction. -/
theorem transactionsOfEachOperation : Obligations.TransactionsOfEachOperation := by
  intro i s t h hended
  cases i with
  | decode v =>
    obtain ⟨-, ⟨es, htrace, hes⟩, -⟩ := decodeFrame s t v h
    obtain ⟨-, rfl⟩ := execDecode_cases h
    have hnone : es.countP isWrite = 0 := countP_eq_zero_of_records hes isWrite_excludes
    rw [eventsSince_of_append htrace]
    exact ⟨(List.countP_cons_of_neg Bool.false_ne_true).trans hnone,
      countP_of_iterate_ended (fun _ _ => decodePass_countP_isRead) (by simp) hended (by simp [isRead]) htrace⟩
  | encode v =>
    obtain ⟨-, ⟨es, htrace, hes⟩, -⟩ := encodeFrame s t v h
    obtain ⟨-, rfl⟩ := execEncode_cases h
    have hnone : es.countP isRead = 0 := countP_eq_zero_of_records hes isRead_excludes
    rw [eventsSince_of_append htrace]
    exact ⟨(List.countP_cons_of_neg Bool.false_ne_true).trans hnone,
      countP_of_iterate_ended (fun _ _ => encodePass_countP_isWrite) (by simp) hended (by simp [isWrite]) htrace⟩
  | sizeof v =>
    obtain ⟨-, rfl⟩ := execSizeof_cases h
    rw [eventsSince_of_append (List.append_assoc _ _ _)]
    exact ⟨rfl, rfl, rfl⟩

end Sys2Proof.Safety

/-! SUPPORT. ENCODE's loop over writes answered `Ok`: the bytes it offers are those of the layout formula (30_encoding
R41, 41_encode R71, R72). What the reference buffer does with bytes it has room for (20_memory R39). -/

namespace Sys2Proof.Machine

/-! ### The reference buffer's memory after a string is stored -/

/-- The memory with these bytes stored from index `a` on, one after another. -/
def Memory.writeAll : Memory → Nat → List Byte → Memory
  | m, _, [] => m
  | m, a, b :: bs => Memory.writeAll (Memory.write m a b) (a + 1) bs

theorem Memory.read_writeAll_other (m : Memory) {a a' : Nat} {bs : List Byte} (h : a' < a ∨ a + bs.length ≤ a') :
    Memory.read (Memory.writeAll m a bs) a' = Memory.read m a' := by
  induction bs generalizing m a with
  | nil => rfl
  | cons b bs ih =>
    rw [List.length_cons] at h
    rw [Memory.writeAll, ih _ (by omega), Memory.read_write_other m b (by omega)]

theorem Memory.read_writeAll_getElem {m : Memory} (a : Nat) {bs : List Byte} (hwf : Memory.wf m = true) {i : Nat}
    (hi : i < bs.length) : Memory.read (Memory.writeAll m a bs) (a + i) = bs[i] := by
  induction bs generalizing m a i with
  | nil => cases hi
  | cons b bs ih =>
    cases i with
    | zero =>
      rw [Memory.writeAll, Memory.read_writeAll_other _ (.inl (by omega)), Nat.add_zero,
        Memory.read_write_same a b hwf, List.getElem_cons_zero]
    | succ i =>
      rw [Memory.writeAll, List.getElem_cons_succ, Nat.add_comm i, ← Nat.add_assoc,
        ih (a + 1) (Memory.wf_write a b hwf) (Nat.lt_of_succ_lt_succ hi)]

end Sys2Proof.Machine

namespace Sys2Proof.Safety

open Sys2Proof.Machine

theorem afterAnswering_writeEvents_refBuf (r : RefBuf) (bs : List Byte) (h : r.wpos + bs.length ≤ r.cap) :
    afterAnswering (.refBuf r) (writeEvents bs) =
      some (.refBuf { r with mem := Memory.writeAll r.mem r.wpos bs, wpos := r.wpos + bs.length }) := by
  induction bs generalizing r with
  | nil => rfl
  | cons b bs ih =>
    rw [List.length_cons] at h
    refine afterAnswering_write.2 ⟨_, Buffer.writeByte_refBuf_of_lt b (by omega), ?_⟩
    refine (ih _ (by simp only; omega)).trans ?_
    simp [Memory.writeAll, Nat.add_assoc, Nat.add_comm 1]

/-! ### The byte offered is the byte of the layout formula -/

theorem canonicalLength_pos (v : Value) : 1 ≤ canonicalLength v :=
  sizeOfValue_eq_canonicalLength v ▸ groupsLeft_pos v

theorem canonicalLength_le (v : Value) : canonicalLength v ≤ 5 :=
  sizeOfValue_eq_canonicalLength v ▸ groupsLeft_le v

theorem canonicalEncoding_length (v : Value) : (canonicalEncoding v).length = canonicalLength v := by
  simp [canonicalEncoding]

theorem canonicalEncoding_getElem {v : Value} {i : Nat} (hi : i < (canonicalEncoding v).length) :
    (canonicalEncoding v)[i] = canonicalByte v i := by
  simp [canonicalEncoding]

theorem canonicalEncoding_take_succ {v : Value} {k : Nat} (hk : k < canonicalLength v) :
    (canonicalEncoding v).take (k + 1) = (canonicalEncoding v).take k ++ [canonicalByte v k] := by
  rw [← canonicalEncoding_length] at hk
  rw [List.take_succ_eq_append_getElem hk, canonicalEncoding_getElem]

/-- The byte written, as the layout formula masks and marks it (30_encoding R41). -/
theorem outByte_eq_layout (rem : Value) :
    outByte rem = (BitVec.setWidth 8 rem &&& 0x7F#8) ||| (if moreGroups rem then 0x80#8 else 0x00#8) := by
  have hmask : rem.toNat % 256 &&& 127 = rem.toNat % 128 := by
    rw [Nat.and_two_pow_sub_one_eq_mod _ 7]
    omega
  have hmark : rem.toNat % 128 ||| 128 = rem.toNat % 128 + 128 := by
    rw [Nat.or_comm, Nat.add_comm]
    exact (Nat.two_pow_add_eq_or_of_lt (Nat.mod_lt _ (by decide : 0 < 2 ^ 7)) 1).symm
  apply BitVec.eq_of_toNat_eq
  rw [outByte_toNat]
  split <;> simp [hmask, hmark]

/-- Shifts add up, so `REM` after `k` passes is the value shifted by `7 * k` (41_encode R71). -/
theorem lsr32_lsr32 (v : Value) (m n : Nat) : lsr32 (lsr32 v m) n = lsr32 v (m + n) :=
  (BitVec.shiftRight_add v m n).symm

/-- The groups left after `k` of them are written. -/
theorem groupsLeft_lsr32_mul {v : Value} {k : Nat} (hk : k < canonicalLength v) :
    groupsLeft (lsr32 v (7 * k)) + k = canonicalLength v := by
  induction k with
  | zero => simpa [groupsLeft, lsr32] using sizeOfValue_eq_canonicalLength v
  | succ k ih =>
    have ih := ih (by omega)
    have hmore : moreGroups (lsr32 v (7 * k)) = true := (moreGroups_iff_groupsLeft _).2 (by omega)
    have hstep := groupsLeft_lsr32 hmore
    rw [lsr32_lsr32] at hstep
    rw [Nat.mul_succ]
    omega

theorem moreGroups_lsr32_mul {v : Value} {k : Nat} (hk : k < canonicalLength v) :
    moreGroups (lsr32 v (7 * k)) = true ↔ k < canonicalLength v - 1 := by
  have := groupsLeft_lsr32_mul hk
  rw [moreGroups_iff_groupsLeft]
  omega

/-- The byte offered after `k` passes is the layout formula's. -/
theorem outByte_lsr32_mul {v : Value} {k : Nat} (hk : k < canonicalLength v) :
    outByte (lsr32 v (7 * k)) = canonicalByte v k := by
  rw [outByte_eq_layout, canonicalByte, if_congr (moreGroups_lsr32_mul hk) rfl rfl, lsr32]

/-! ### The loop -/

/-- A buffer takes one more byte of an encoding by taking those before it and then that byte. -/
theorem afterAnswering_take_succ {v : Value} {k : Nat} {buf buf' : Buffer} (hk : k < canonicalLength v) :
    afterAnswering buf (writeEvents ((canonicalEncoding v).take (k + 1))) = some buf' ↔
      ∃ mid, afterAnswering buf (writeEvents ((canonicalEncoding v).take k)) = some mid ∧
        mid.writeByte (canonicalByte v k) = some (.ok, buf') := by
  simp [canonicalEncoding_take_succ hk, writeEvents, afterAnswering_append, Option.bind_eq_some_iff,
    afterAnswering_write]

/-- ENCODE's loop over a buffer that takes the first `k` bytes, the last not among them: it goes on with `REM` shifted
by their groups. -/
theorem iterate_encodePass_more {s : State} {v : Value} {k : Nat} {buf : Buffer} (hb : s.block = .encoding v 0)
    (hk : k < canonicalLength v)
    (hs : afterAnswering s.buffer (writeEvents ((canonicalEncoding v).take k)) = some buf) :
    iterate encodePass k s =
      { s with block := .encoding (lsr32 v (7 * k)) k, buffer := buf,
               trace := s.trace ++ writeEvents ((canonicalEncoding v).take k) } := by
  induction k generalizing buf with
  | zero =>
    cases hs
    cases s
    simp_all [lsr32, writeEvents]
  | succ k ih =>
    have hk' : k < canonicalLength v := by omega
    obtain ⟨mid, hmid, hw⟩ := (afterAnswering_take_succ hk').1 hs
    rw [← outByte_lsr32_mul hk'] at hw
    have hmore : moreGroups (lsr32 v (7 * k)) = true := (moreGroups_lsr32_mul hk').2 (by omega)
    rw [iterate_add, ih hk' hmid, iterate_of_some (encodePass_more rfl hw hmore), iterate_zero,
      lsr32_lsr32, outByte_lsr32_mul hk', canonicalEncoding_take_succ hk']
    simp [State.withBlock, State.withBuffer, State.record, writeEvents, Nat.mul_succ]

/-- ENCODE over a buffer that takes the first `k` bytes, the last not among them, comes to the condition of R71 before
the rest of its passes. -/
theorem execEncode_of_taken {s : State} {v : Value} {k n : Nat} {buf : Buffer} (hidle : s.block = .idle)
    (hk : k < canonicalLength v)
    (hs : afterAnswering s.buffer (writeEvents ((canonicalEncoding v).take k)) = some buf) (hn : k + n = 5) :
    exec (.encode v) s =
      .next (iterate encodePass n
        (waiting s (.encoding (lsr32 v (7 * k)) k) buf
          (.command (.encode v) :: writeEvents ((canonicalEncoding v).take k)))) := by
  calc exec (.encode v) s
    _ = .next (iterate encodePass 5 ((accept (.encode v) s).withBlock (.encoding v 0))) := whenIdle_of_idle _ hidle
    _ = _ := by
      rw [← hn, iterate_add, iterate_encodePass_more (State.withBlock_block (accept (.encode v) s) _) hk hs]
      simp [waiting, accept, State.withBlock, State.withResponse, State.record]

/-- An ENCODE whose loop comes to a pass that ends it has ended there. -/
theorem execEncode_of_last_pass {s t : State} {v : Value} {k : Nat} {buf : Buffer} (hidle : s.block = .idle)
    (hk : k < canonicalLength v)
    (hs : afterAnswering s.buffer (writeEvents ((canonicalEncoding v).take k)) = some buf)
    (hpass : encodePass
      (waiting s (.encoding (lsr32 v (7 * k)) k) buf
        (.command (.encode v) :: writeEvents ((canonicalEncoding v).take k))) = some t)
    (ht : t.block = .idle) : exec (.encode v) s = .next t := by
  have hle := canonicalLength_le v
  rw [execEncode_of_taken (n := 4 - k + 1) hidle hk hs (by omega), iterate_of_some hpass,
    iterate_of_none (encodePass_eq_none.2 (.inl (by simp [ht])))]

/-- ENCODE over a buffer that takes all its bytes answers `OK` after the last of them. -/
theorem execEncode_of_taken_all {s : State} {v : Value} {buf : Buffer} (hidle : s.block = .idle)
    (hs : afterAnswering s.buffer (writeEvents (canonicalEncoding v)) = some buf) :
    exec (.encode v) s =
      .next (ended s (.ok none) buf
        (.command (.encode v) :: writeEvents (canonicalEncoding v) ++ [.response (.ok none)])) := by
  obtain ⟨k, hlen⟩ : ∃ k, canonicalLength v = k + 1 := Nat.exists_eq_add_of_le' (canonicalLength_pos v)
  have hk : k < canonicalLength v := by omega
  have hend : moreGroups (lsr32 v (7 * k)) = false :=
    Bool.eq_false_iff.2 fun hmore => by have := (moreGroups_lsr32_mul hk).1 hmore; omega
  have hall : canonicalEncoding v = (canonicalEncoding v).take (k + 1) := by
    rw [← hlen, ← canonicalEncoding_length, List.take_length]
  rw [hall] at hs ⊢
  obtain ⟨mid, hmid, hw⟩ := (afterAnswering_take_succ hk).1 hs
  rw [← outByte_lsr32_mul hk] at hw
  refine execEncode_of_last_pass hidle hk hmid ?_ rfl
  rw [encodePass_last rfl hw hend, finish_waiting, outByte_lsr32_mul hk, canonicalEncoding_take_succ hk]
  simp [writeEvents]

/-- Settles O23: the reference buffer with room takes the encoding, storing it byte by byte at its write position. -/
theorem encodeStoresIntoRefBuf : Obligations.EncodeStoresIntoRefBuf := by
  intro s v r hidle hbuf hwf hroom
  rw [← canonicalEncoding_length] at hroom ⊢
  refine ⟨Memory.writeAll r.mem r.wpos (canonicalEncoding v), ?_, fun i hi => ?_, fun a ha => ?_⟩
  · exact execEncode_of_taken_all hidle (hbuf ▸ afterAnswering_writeEvents_refBuf r _ hroom)
  · rw [Memory.read_writeAll_getElem r.wpos hwf hi, canonicalEncoding_getElem]
  · exact Memory.read_writeAll_other r.mem ha

end Sys2Proof.Safety

/-! SUPPORT. Command words: the fields of a word put together from them, and what they make the decoder and the step do
(30_encoding R49, R50, R53). -/

namespace Sys2Proof

/-! ### The fields in place -/

@[simp] theorem cmdOp_append (op : BitVec 2) (v : Value) : cmdOp (op ++ v) = op :=
  BitVec.extractLsb'_append_eq_left

@[simp] theorem cmdValue_append (op : BitVec 2) (v : Value) : cmdValue (op ++ v) = v :=
  BitVec.extractLsb'_append_eq_right

/-- A command word has no bits but its two fields. -/
theorem cmdOp_append_cmdValue (w : CommandWord) : cmdOp w ++ cmdValue w = w :=
  (BitVec.extractLsb'_append_extractLsb'_eq_extractLsb' rfl).trans BitVec.extractLsb'_eq_self

theorem toNat_append_value (op : BitVec 2) (v : Value) : (op ++ v).toNat = op.toNat * 2 ^ 32 + v.toNat := by
  rw [BitVec.toNat_append, ← Nat.shiftLeft_add_eq_or_of_lt v.isLt, Nat.shiftLeft_eq]

/-! ### The decoder -/

theorem decodeCommand_encodeCommand (i : Instr) : decodeCommand (encodeCommand i) = .ok i := by
  cases i <;> simp only [decodeCommand, encodeCommand, cmdOp_append, cmdValue_append] <;> rfl

theorem decodeCommand_reserved (v : Value) : decodeCommand (Config.opReserved ++ v) = .error .reservedCode := by
  simp only [decodeCommand, cmdOp_append]
  rfl

/-- The code tested and the value kept are all of the word. -/
theorem encodeCommand_of_decodeCommand {w : CommandWord} {i : Instr} (h : decodeCommand w = .ok i) :
    encodeCommand i = w := by
  have hw := cmdOp_append_cmdValue w
  unfold decodeCommand at h
  split_ifs at h with hop hop hop <;> cases h <;> rwa [hop] at hw

/-- A number of at most 34 bits in the opcode table is read as the command word it is the number of. -/
theorem decodeTableWord_of_lt (nbits : Nat) {n : Nat} (hn : n < 2 ^ 34) :
    decodeTableWord nbits n = (decodeCommand (BitVec.ofNat 34 n)).toOption := by
  rw [decodeTableWord, if_pos hn]
  cases decodeCommand (BitVec.ofNat 34 n) <;> rfl

theorem decodeCommand_of_decodeTableWord {nbits n : Nat} {i : Instr} (h : decodeTableWord nbits n = some i) :
    decodeCommand (BitVec.ofNat 34 n) = .ok i := by
  by_cases hn : n < 2 ^ 34
  · rw [decodeTableWord_of_lt nbits hn] at h
    cases hd : decodeCommand (BitVec.ofNat 34 n) <;> simp_all [Except.toOption]
  · rw [decodeTableWord, if_neg hn] at h
    cases h

/-- The number `cmd_op * 2 ^ 32 + cmd_value` is decoded as the word put together from those fields, as a command word
and as a row of the opcode table. -/
theorem decode_number {op : BitVec 2} {v : Value} {n : Nat} (hn : n = op.toNat * 2 ^ 32 + v.toNat)
    {r : Except DecodeError Instr} (hr : decodeCommand (op ++ v) = r) :
    decodeCommand (BitVec.ofNat 34 n) = r ∧ ∀ nbits, decodeTableWord nbits n = r.toOption := by
  rw [← toNat_append_value] at hn
  have hword : BitVec.ofNat 34 n = op ++ v := by rw [hn, BitVec.ofNat_toNat, BitVec.setWidth_eq]
  rw [← hr, ← hword]
  exact ⟨rfl, fun nbits => decodeTableWord_of_lt nbits (hn ▸ (op ++ v).isLt)⟩

/-- Settles O1: a word is its two fields, so neither direction loses a bit. -/
theorem commandWordsRoundTrip : Obligations.CommandWordsRoundTrip :=
  ⟨decodeCommand_encodeCommand, fun _ _ => encodeCommand_of_decodeCommand⟩

/-- Settles O2: each of the numbers is that of the word put together from its fields. -/
theorem commandWordFieldsAreReadInPlace : Obligations.CommandWordFieldsAreReadInPlace := by
  intro v
  have hzero : v.toNat = Config.opDecode.toNat * 2 ^ 32 + v.toNat := (Nat.zero_add _).symm
  obtain ⟨hdecode, hdecode'⟩ := decode_number hzero (decodeCommand_encodeCommand (.decode v))
  obtain ⟨hencode, hencode'⟩ := decode_number (op := Config.opEncode) rfl (decodeCommand_encodeCommand (.encode v))
  obtain ⟨hsizeof, hsizeof'⟩ := decode_number (op := Config.opSizeof) rfl (decodeCommand_encodeCommand (.sizeof v))
  obtain ⟨hreserved, hreserved'⟩ := decode_number rfl (decodeCommand_reserved v)
  exact ⟨hdecode, hencode, hsizeof, hreserved,
    fun nbits => ⟨hdecode' nbits, hencode' nbits, hsizeof' nbits, hreserved' nbits⟩⟩

/-- Settles O3: the decoder computes each of the words. -/
theorem writtenOutCommandWordsDecode : Obligations.WrittenOutCommandWordsDecode :=
  ⟨rfl, rfl, rfl, rfl⟩

end Sys2Proof

namespace Sys2Proof.Machine

/-! ### The step -/

/-- An idle block takes the command word its caller drives. -/
theorem step_of_command {s : State} {w : CommandWord} {rest : List CallerInput} (hidle : s.block = .idle)
    (hc : s.caller = .command w :: rest) : step s = issueWith exec w rest s := by
  simp [step, stepWith, hidle, hc]

/-- An idle block runs the command its caller drives. -/
theorem step_of_decoded {s : State} {w : CommandWord} {rest : List CallerInput} {i : Instr} (hidle : s.block = .idle)
    (hc : s.caller = .command w :: rest) (hi : decodeCommand w = .ok i) : step s = exec i (s.withCaller rest) := by
  rw [step_of_command hidle hc, issueWith, hi]

/-- Settles O5: the word placed is the one the idle block takes. -/
theorem fetchedWordIsRunByTheNextStep : Obligations.FetchedWordIsRunByTheNextStep := by
  intro s nbits w i hi
  exact step_of_decoded rfl rfl (decodeCommand_of_decodeTableWord hi)

/-- Settles O6: the decoder has no command for the reserved code. -/
theorem stepRefusesReservedCode : Obligations.StepRefusesReservedCode := by
  intro s v rest hidle hc
  rw [step_of_command hidle hc, issueWith, decodeCommand_reserved]

end Sys2Proof.Machine

/-! SUPPORT. DECODE over the free oracle (20_memory R27): the value of the bytes read by its bits (30_encoding R44), and
the ways the oracle's answers can end it (30_encoding R46, R47, R54). That it ignores its operand (30_encoding R51). -/

namespace Sys2Proof.Safety

open Sys2Proof.Machine

/-- An oracle serves the bytes its answers to reads begin with. -/
theorem serves_of_oracle {buf : Buffer} {bs : List Byte} {reads : List ReadAnswer} {writes : List WriteAnswer}
    (h : buf = .oracle (bs.map .ok ++ reads) writes) : serves buf bs (.oracle reads writes) :=
  h ▸ serves_oracle bs reads writes

/-- Settles O9: the oracle serves the accepted string, and keeps what follows. -/
theorem decodeReturnsAssembledValue : Obligations.DecodeReturnsAssembledValue := by
  intro s v bs reads writes hidle hbuf hbs
  exact execDecode_of_accepted v hidle (serves_of_oracle hbuf) hbs

/-! ### The bits of the value -/

/-- The number in the group of byte `i`, 0 where there is no such byte. -/
def groupNumber (bs : List Byte) (i : Nat) : Nat := ((bs[i]?).getD 0#8).toNat % 128

theorem groupNumber_lt (bs : List Byte) (i : Nat) : groupNumber bs i < 128 := Nat.mod_lt _ (by decide)

/-- What the first `n` bytes add up to, as a sum of `n` terms however many bytes there are. -/
theorem sum_take_groups (bs : List Byte) (n : Nat) :
    ((bs.take n).mapIdx fun i b => b.toNat % 128 * 2 ^ (7 * i)).sum =
      ∑ i ∈ Finset.range n, groupNumber bs i * 2 ^ (7 * i) := by
  induction n with
  | zero => rfl
  | succ n ih =>
    rw [List.take_add_one, List.mapIdx_append, List.sum_append, ih, Finset.sum_range_succ, groupNumber]
    rcases Nat.lt_or_ge n bs.length with hlt | hge
    · simp [hlt, hlt.le]
    · simp [hge]

theorem assembled_toNat (bs : List Byte) :
    (assembled bs).toNat = (groupNumber bs 0 + groupNumber bs 1 * 128 + groupNumber bs 2 * 16384 +
      groupNumber bs 3 * 2097152 + groupNumber bs 4 * 268435456) % 4294967296 := by
  rw [assembled, sum_take_groups, BitVec.toNat_ofNat]
  simp [Finset.sum_range_succ]

/-- The groups below place `i` leave no carry, and those above it are cut off. -/
theorem extractLsb'_group (bs : List Byte) {i : Nat} (hi : i < 4) :
    (assembled bs).extractLsb' (7 * i) 7 = ((bs[i]?).getD 0#8).extractLsb' 0 7 := by
  have hgroup : (((bs[i]?).getD 0#8).extractLsb' 0 7).toNat = groupNumber bs i := groupOf_toNat _
  have h0 := groupNumber_lt bs 0
  have h1 := groupNumber_lt bs 1
  have h2 := groupNumber_lt bs 2
  have h3 := groupNumber_lt bs 3
  apply BitVec.eq_of_toNat_eq
  rw [hgroup, BitVec.extractLsb'_toNat, assembled_toNat, Nat.shiftRight_eq_div_pow]
  interval_cases i <;> omega

/-- Of the fifth group the truncation to 32 bits leaves four bits. -/
theorem extractLsb'_fifthGroup (bs : List Byte) :
    (assembled bs).extractLsb' 28 4 = ((bs[4]?).getD 0#8).extractLsb' 0 4 := by
  have hgroup : (((bs[4]?).getD 0#8).extractLsb' 0 4).toNat = groupNumber bs 4 % 16 := by
    rw [BitVec.extractLsb'_toNat, Nat.shiftRight_zero, groupNumber]
    omega
  have h0 := groupNumber_lt bs 0
  have h1 := groupNumber_lt bs 1
  have h2 := groupNumber_lt bs 2
  have h3 := groupNumber_lt bs 3
  apply BitVec.eq_of_toNat_eq
  rw [hgroup, BitVec.extractLsb'_toNat, assembled_toNat, Nat.shiftRight_eq_div_pow]
  omega

/-- Settles O10: the groups are disjoint digits of the value. -/
theorem decodePlacesEachGroup : Obligations.DecodePlacesEachGroup := by
  intro s v bs reads writes hidle hbuf hbs
  exact ⟨_, assembled bs, decodeReturnsAssembledValue s v bs reads writes hidle hbuf hbs, rfl,
    fun _ => extractLsb'_group bs, extractLsb'_fifthGroup bs⟩

/-! ### The ways a list of answers can begin -/

/-- A list of answers begins with at most `n` bytes that say more follow, and after them stands nothing, or a failure,
or a terminator, or, where they are `n`, one more byte that says more follow. -/
theorem reads_cases (n : Nat) (reads : List ReadAnswer) :
    ∃ bs : List Byte, bs.length ≤ n ∧ bs.all continues = true ∧
      (reads = bs.map .ok ∨
       (∃ e rest, reads = bs.map .ok ++ .fail e :: rest) ∨
       (∃ b rest, reads = (bs ++ [b]).map .ok ++ rest ∧ continues b = false) ∨
       (∃ b rest, reads = (bs ++ [b]).map .ok ++ rest ∧ continues b = true ∧ bs.length = n)) := by
  induction reads generalizing n with
  | nil => exact ⟨[], Nat.zero_le n, rfl, .inl rfl⟩
  | cons a reads ih =>
    cases a with
    | fail e => exact ⟨[], Nat.zero_le n, rfl, .inr (.inl ⟨e, reads, rfl⟩)⟩
    | ok b =>
      by_cases hb : continues b = true
      · cases n with
        | zero => exact ⟨[], le_rfl, rfl, .inr (.inr (.inr ⟨b, reads, rfl, hb, rfl⟩))⟩
        | succ n =>
          obtain ⟨bs, hlen, hall, hcases⟩ := ih n
          refine ⟨b :: bs, Nat.succ_le_succ hlen, by simp [hb, hall], ?_⟩
          simpa using hcases
      · exact ⟨[], Nat.zero_le n, rfl, .inr (.inr (.inl ⟨b, reads, rfl, by simpa using hb⟩))⟩

/-- Settles O14: the answers begin in one of four ways, and each is a row of DECODE's table or the wait. -/
theorem decodeEndsOnlyAsItsBytesSay : Obligations.DecodeEndsOnlyAsItsBytesSay := by
  intro s v reads writes hidle hbuf
  obtain ⟨bs, hlen, hall, rfl | ⟨e, rest, rfl⟩ | ⟨b, rest, rfl, hb⟩ | ⟨b, rest, rfl, hb, hnine⟩⟩ := reads_cases 9 reads
  · exact ⟨_, decodeWaitsForSilentBuffer s v bs writes hidle hbuf hlen hall, bs, [], rfl, rfl, rfl, rfl, hlen, hall⟩
  · exact ⟨_, execDecode_of_readFailure v hidle (serves_of_oracle hbuf) hall hlen rfl, bs, rest, rfl, rfl, rfl, rfl,
      hlen, hall⟩
  · have haccepted : accepted (bs ++ [b]) = true := accepted_concat.2 ⟨hlen, hall, hb⟩
    exact ⟨_, execDecode_of_accepted v hidle (serves_of_oracle hbuf) haccepted, bs ++ [b], rest, rfl, rfl, rfl, rfl,
      haccepted, rfl⟩
  · have hten : (bs ++ [b]).length = 10 := by simp [hnine]
    have hall : (bs ++ [b]).all continues = true := by simpa [hb] using hall
    exact ⟨_, execDecode_of_tenContinuationBytes v hidle (serves_of_oracle hbuf) hten hall, bs ++ [b], rest, rfl, rfl,
      rfl, rfl, hten, hall⟩

/-! ### The operand -/

/-- Where DECODE's loop begins, whatever its operand: before this buffer, with nothing recorded and no caller. -/
def decodeBegun (buf : Buffer) : State := (alone buf).withBlock (.decoding 0#32 0)

/-- The operand of a DECODE is in the record of its command, and nowhere else. -/
theorem execDecode_eq_behind (v : Value) {s : State} (hidle : s.block = .idle) :
    exec (.decode v) s = .next (behind (accept (.decode v) s) (runOperation (decodeBegun s.buffer))) := by
  have hbegun : begun (.decode v) s = behind (accept (.decode v) s) (decodeBegun s.buffer) :=
    State.ext_fields rfl rfl rfl rfl (List.append_nil _).symm
  rw [exec_of_idle _ hidle, hbegun, runOperation_behind]

/-- Settles O17: the operation after its command is recorded is the same for every operand. -/
theorem decodeIgnoresCommandValue : Obligations.DecodeIgnoresCommandValue := by
  intro s t v w h
  have hidle : s.block = .idle := (exec_eq_next.1 h).1
  rw [execDecode_eq_behind v hidle] at h
  cases h
  refine ⟨(runOperation (decodeBegun s.buffer)).trace, List.append_assoc _ _ _, ?_⟩
  rw [execDecode_eq_behind w hidle]
  simp [behind]

end Sys2Proof.Safety

/-! SUPPORT. ENCODE over the free oracle (20_memory R27), and the canonical encoding read back: it is an accepted string
whose value is the value encoded (30_encoding R41 to R43, R46, R47). -/

namespace Sys2Proof.Safety

open Sys2Proof.Machine

/-- The oracle takes as many bytes as it answers `Ok` to. -/
theorem afterAnswering_writeEvents_oracle (bs : List Byte) (reads : List ReadAnswer) (writes : List WriteAnswer) :
    afterAnswering (.oracle reads (List.replicate bs.length .ok ++ writes)) (writeEvents bs) =
      some (.oracle reads writes) := by
  induction bs with
  | nil => rfl
  | cons b bs ih => exact afterAnswering_write.2 ⟨_, rfl, ih⟩

/-- Settles O19: the oracle takes the whole encoding. -/
theorem encodeWritesCanonicalEncoding : Obligations.EncodeWritesCanonicalEncoding := by
  intro s v reads writes hidle hbuf
  rw [← canonicalEncoding_length] at hbuf
  exact execEncode_of_taken_all hidle (hbuf ▸ afterAnswering_writeEvents_oracle _ reads writes)

/-! ### The canonical encoding is accepted, and has its value -/

theorem toNat_lt_of_canonicalLength (v : Value) : v.toNat < 2 ^ (7 * canonicalLength v) := by
  have hv := v.isLt
  rw [← sizeOfValue_eq_canonicalLength, sizeOfValue_eq]
  split_ifs <;> omega

/-- A byte of the encoding is the group of its place, and marked if more follow. -/
theorem canonicalByte_toNat {v : Value} {k : Nat} (hk : k < canonicalLength v) :
    (canonicalByte v k).toNat =
      v.toNat / 2 ^ (7 * k) % 128 + if k < canonicalLength v - 1 then 128 else 0 := by
  rw [← outByte_lsr32_mul hk, outByte_toNat, lsr32_toNat, if_congr (moreGroups_lsr32_mul hk) rfl rfl]

theorem continues_canonicalByte {v : Value} {k : Nat} (hk : k < canonicalLength v) :
    continues (canonicalByte v k) = decide (k < canonicalLength v - 1) := by
  rw [continues, canonicalByte_toNat hk, decide_eq_decide]
  split <;> omega

theorem canonicalEncoding_take_continues {v : Value} {k : Nat} (hk : k < canonicalLength v) :
    ((canonicalEncoding v).take k).all continues = true := by
  induction k with
  | zero => rfl
  | succ k ih =>
    have hk' : k < canonicalLength v := by omega
    have hlast : continues (canonicalByte v k) = true := by
      rw [continues_canonicalByte hk']
      exact decide_eq_true (by omega)
    rw [canonicalEncoding_take_succ hk', List.all_append, ih hk']
    simp [hlast]

/-- The first `k` bytes of an encoding carry the low `7 * k` bits of the value. -/
theorem assembled_canonicalEncoding_take {v : Value} {k : Nat} (hk : k ≤ canonicalLength v) :
    (assembled ((canonicalEncoding v).take k)).toNat = v.toNat % 2 ^ (7 * k) := by
  induction k with
  | zero => simp [assembled, Nat.mod_one]
  | succ k ih =>
    have hle := canonicalLength_le v
    have hlen : ((canonicalEncoding v).take k).length = k := by
      rw [List.length_take, canonicalEncoding_length]
      omega
    have hgroup : (canonicalByte v k).toNat % 128 = v.toNat / 2 ^ (7 * k) % 2 ^ 7 := by
      rw [canonicalByte_toNat hk]
      split <;> omega
    have hlow : v.toNat % 2 ^ (7 * (k + 1)) < 2 ^ 32 := (Nat.mod_le _ _).trans_lt v.isLt
    rw [canonicalEncoding_take_succ hk, assembled_concat_of_lt _ _ (by omega), hlen, ih (by omega), hgroup,
      Nat.mul_comm (_ % _), ← Nat.mod_mul, ← Nat.pow_add, BitVec.toNat_ofNat]
    exact Nat.mod_eq_of_lt hlow

theorem canonicalEncoding_eq_concat (v : Value) :
    ∃ k, canonicalLength v = k + 1 ∧
      canonicalEncoding v = (canonicalEncoding v).take k ++ [canonicalByte v k] := by
  obtain ⟨k, hlen⟩ : ∃ k, canonicalLength v = k + 1 := Nat.exists_eq_add_of_le' (canonicalLength_pos v)
  refine ⟨k, hlen, ?_⟩
  rw [← canonicalEncoding_take_succ (by omega), ← hlen, ← canonicalEncoding_length, List.take_length]

theorem accepted_canonicalEncoding (v : Value) : accepted (canonicalEncoding v) = true := by
  obtain ⟨k, hlen, hconcat⟩ := canonicalEncoding_eq_concat v
  have hle := canonicalLength_le v
  rw [hconcat]
  refine accepted_concat.2 ⟨(List.length_take_le _ _).trans (by omega), canonicalEncoding_take_continues (by omega), ?_⟩
  rw [continues_canonicalByte (by omega)]
  exact decide_eq_false (by omega)

theorem assembled_canonicalEncoding (v : Value) : assembled (canonicalEncoding v) = v := by
  have hall := assembled_canonicalEncoding_take (v := v) le_rfl
  rw [← canonicalEncoding_length, List.take_length, canonicalEncoding_length,
    Nat.mod_eq_of_lt (toNat_lt_of_canonicalLength v)] at hall
  exact BitVec.eq_of_toNat_eq hall

/-- DECODE reads a canonical encoding back, whatever its operand. -/
theorem execDecode_of_canonicalEncoding {s : State} (w v : Value) {buf : Buffer} (hidle : s.block = .idle)
    (hs : serves s.buffer (canonicalEncoding v) buf) :
    exec (.decode w) s =
      .next (ended s (.ok (some v)) buf
        (.command (.decode w) :: readEvents (canonicalEncoding v) ++ [.response (.ok (some v))])) := by
  rw [execDecode_of_accepted w hidle hs (accepted_canonicalEncoding v), assembled_canonicalEncoding]

/-! ### A stream of encodings -/

theorem filterMap_responseOf_readEvents (bs : List Byte) : (readEvents bs).filterMap responseOf = [] := by
  simp [readEvents, List.filterMap_map, Function.comp_def, responseOf]

/-- A step that takes a DECODE over a canonical encoding consumes it and gives one response, `OK` of its value. -/
theorem step_decode_of_canonicalEncoding {s : State} {w v : Value} {rest : List CallerInput} {buf : Buffer}
    (hidle : s.block = .idle) (hc : s.caller = .command (encodeCommand (.decode w)) :: rest)
    (hs : serves s.buffer (canonicalEncoding v) buf) :
    ∃ (t : State) (es : List Event), step s = .next t ∧ t.block = .idle ∧ t.caller = rest ∧ t.buffer = buf ∧
      t.trace = s.trace ++ es ∧ es.filterMap responseOf = [.ok (some v)] := by
  refine ⟨_, _, (step_of_decoded hidle hc (decodeCommand_encodeCommand _)).trans
    (execDecode_of_canonicalEncoding w v hidle hs), rfl, rfl, rfl, rfl, ?_⟩
  simp [List.filterMap_cons, filterMap_responseOf_readEvents, responseOf]

theorem run_succ_of_step {s t : State} (n : Nat) (h : step s = .next t) :
    Host.Core.run core (n + 1) s = Host.Core.run core n t := by
  have hcore : core.step s = .next t := h
  simp only [Host.Core.run, hcore]

/-- The DECODEs of a stream of encodings, with their events behind what was recorded before. -/
theorem run_stream (vs : List Value) {s : State} {reads : List ReadAnswer} {writes : List WriteAnswer}
    (hidle : s.block = .idle) (hc : s.caller = vs.map (fun v => .command (encodeCommand (.decode v))))
    (hbuf : s.buffer = .oracle ((vs.flatMap canonicalEncoding).map .ok ++ reads) writes) :
    ∃ (t : State) (es : List Event), Host.Core.run core vs.length s = .next t ∧
      t.block = .idle ∧ t.buffer = .oracle reads writes ∧ t.trace = s.trace ++ es ∧
      es.filterMap responseOf = vs.map (fun v => .ok (some v)) := by
  induction vs generalizing s with
  | nil => exact ⟨s, [], rfl, hidle, hbuf, (List.append_nil _).symm, rfl⟩
  | cons v vs ih =>
    rw [List.flatMap_cons, List.map_append, List.append_assoc] at hbuf
    obtain ⟨u, es, hstep, hidle', hc', hbuf', htrace, hes⟩ :=
      step_decode_of_canonicalEncoding hidle hc (serves_of_oracle hbuf)
    obtain ⟨t, es', hrun, hended, hrest, htrace', hes'⟩ := ih hidle' hc' hbuf'
    refine ⟨t, es ++ es', ?_, hended, hrest, by rw [htrace', htrace, List.append_assoc], ?_⟩
    · exact (run_succ_of_step _ hstep).trans hrun
    · rw [List.filterMap_append, hes, hes']
      rfl

/-- Settles O30: each DECODE reads one encoding of the stream and leaves the next ones. -/
theorem streamOfEncodingsDecodesInOrder : Obligations.StreamOfEncodingsDecodesInOrder := by
  intro s vs reads writes hidle hc hbuf
  obtain ⟨t, es, hrun, hidle', hbuf', htrace, hes⟩ := run_stream vs hidle hc hbuf
  exact ⟨t, hrun, hidle', hbuf', eventsSince_of_append htrace ▸ hes⟩

end Sys2Proof.Safety

/-! SUPPORT. The responses each operation can leave on the port (30_encoding R52, 60_exceptions R90). -/

namespace Sys2Proof.Safety

open Sys2Proof.Machine

/-- The response on the port, if there is one, is one of these. -/
def PortHolds (P : Response → Prop) (s : State) : Prop := ∀ r, s.response = some r → P r

theorem portHolds_finish {P : Response → Prop} {r : Response} (hr : P r) (s : State) : PortHolds P (finish r s) := by
  rintro _ ⟨⟩
  exact hr

theorem portHolds_of_none {P : Response → Prop} {s : State} (h : s.response = none) : PortHolds P s := by
  simp [PortHolds, h]

/-- A pass of DECODE leaves on the port what was there, or a response that is no write failure. -/
theorem decodePass_keeps_status {s t : State} (hs : PortHolds (fun r => rspStatus r ≠ 3#2) s)
    (h : decodePass s = some t) : PortHolds (fun r => rspStatus r ≠ 3#2) t := by
  obtain ⟨acc, idx, a, buf, -, -, h⟩ := decodePass_cases h
  rcases h with ⟨e, -, rfl⟩ | ⟨b, -, -, rfl⟩ | ⟨b, -, -, -, rfl⟩ | ⟨b, -, -, -, rfl⟩
  · exact portHolds_finish (show Config.statusBufferRead ≠ 3#2 by decide) _
  · exact portHolds_finish (show Config.statusOk ≠ 3#2 by decide) _
  · exact portHolds_finish (show Config.statusTooLong ≠ 3#2 by decide) _
  · exact hs

/-- A pass of ENCODE leaves on the port what was there, or `OK`, or a write failure. -/
theorem encodePass_keeps_status {s t : State} (hs : PortHolds (fun r => rspStatus r = 0#2 ∨ rspStatus r = 3#2) s)
    (h : encodePass s = some t) : PortHolds (fun r => rspStatus r = 0#2 ∨ rspStatus r = 3#2) t := by
  obtain ⟨rem, idx, a, buf, -, -, h⟩ := encodePass_cases h
  rcases h with ⟨e, -, rfl⟩ | ⟨-, -, rfl⟩ | ⟨-, -, rfl⟩
  · exact portHolds_finish (.inr rfl) _
  · exact portHolds_finish (.inl rfl) _
  · exact hs

/-- Settles O37: the port is empty when an operation's loop begins, and each of its passes keeps the statuses. -/
theorem statusesOfEachOperation : Obligations.StatusesOfEachOperation := by
  intro i s t r h hr
  cases i with
  | decode v =>
    obtain ⟨-, rfl⟩ := execDecode_cases h
    exact iterate_induction (fun _ _ => decodePass_keeps_status) 10 (portHolds_of_none rfl) r hr
  | encode v =>
    obtain ⟨-, rfl⟩ := execEncode_cases h
    exact iterate_induction (fun _ _ => encodePass_keeps_status) 5 (portHolds_of_none rfl) r hr
  | sizeof v =>
    obtain ⟨-, rfl⟩ := execSizeof_cases h
    exact portHolds_finish (P := fun r => rspStatus r = 0#2) rfl _ r hr

end Sys2Proof.Safety

/-! SUPPORT. DECODE's two failures over the free oracle (40_decode R65, R68). -/

namespace Sys2Proof.Safety

open Sys2Proof.Machine

/-- Settles O11: the oracle serves the ten bytes, and DECODE fails over any buffer that serves such a string. -/
theorem decodeFailsAfterTenContinuationBytes : Obligations.DecodeFailsAfterTenContinuationBytes := by
  intro s v bs reads writes hidle hbuf hten hall
  exact execDecode_of_tenContinuationBytes v hidle (serves_of_oracle hbuf) hten hall

/-- Settles O12: the oracle serves the bytes before the failure, and its next answer is that failure. -/
theorem decodeHandsOnReadFailure : Obligations.DecodeHandsOnReadFailure := by
  intro s v bs e reads writes hidle hbuf hlen hall
  exact execDecode_of_readFailure v hidle (serves_of_oracle hbuf) hall hlen rfl

end Sys2Proof.Safety

/-! SUPPORT. The ways an ENCODE goes, over any buffer, by how many of its bytes the buffer takes (41_encode R71, R77,
R79, 60_exceptions R95), and the encoding read back (41_encode R76). -/

namespace Sys2Proof.Safety

open Sys2Proof.Machine

/-! ### Bytes and their answers -/

theorem zipWith_write_replicate (bs : List Byte) (k : Nat) :
    List.zipWith Event.write bs (List.replicate k .ok) = writeEvents (bs.take k) := by
  induction bs generalizing k with
  | nil => simp [writeEvents]
  | cons b bs ih =>
    cases k with
    | zero => rfl
    | succ k => exact congrArg (Event.write b .ok :: ·) (ih k)

theorem zipWith_write_replicate_concat {bs : List Byte} {k : Nat} (hk : k < bs.length) (a : WriteAnswer) :
    List.zipWith Event.write bs (List.replicate k .ok ++ [a]) = writeEvents (bs.take k) ++ [.write bs[k] a] := by
  induction bs generalizing k with
  | nil => cases hk
  | cons b bs ih =>
    cases k with
    | zero => simp [writeEvents]
    | succ k => exact congrArg (Event.write b .ok :: ·) (ih (Nat.lt_of_succ_lt_succ hk))

/-- An oracle that gave these answers to writes had them first, and keeps the rest. -/
theorem afterAnswering_zipWith_oracle {bs : List Byte} {answers writes : List WriteAnswer} {reads : List ReadAnswer}
    {buf : Buffer} (hlen : answers.length ≤ bs.length)
    (h : afterAnswering (.oracle reads writes) (List.zipWith Event.write bs answers) = some buf) :
    ∃ rest, writes = answers ++ rest ∧ buf = .oracle reads rest := by
  induction answers generalizing bs writes with
  | nil =>
    rw [List.zipWith_nil_right] at h
    cases h
    exact ⟨writes, rfl, rfl⟩
  | cons a answers ih =>
    cases bs with
    | nil => cases hlen
    | cons b bs =>
      obtain ⟨mid, hw, hrest⟩ := afterAnswering_write.1 h
      cases writes with
      | nil => cases hw
      | cons a' writes =>
        cases hw
        obtain ⟨rest, rfl, rfl⟩ := ih (Nat.le_of_succ_le_succ hlen) hrest
        exact ⟨rest, rfl, rfl⟩

theorem writeEvents_injective : Function.Injective writeEvents :=
  List.map_injective_iff.2 fun _ _ h => (Event.write.inj h).1

theorem response_notMem_writeEvents (r : Response) (bs : List Byte) : Event.response r ∉ writeEvents bs := by
  simp [writeEvents]

/-! ### The three ways an ENCODE goes -/

theorem canonicalEncoding_take_canonicalLength (v : Value) :
    (canonicalEncoding v).take (canonicalLength v) = canonicalEncoding v := by
  rw [← canonicalEncoding_length, List.take_length]

/-- A buffer takes the first `n` bytes of an encoding, or comes to one of them that it fails or does not answer. -/
theorem taken_cases (buf : Buffer) {v : Value} {n : Nat} (hn : n ≤ canonicalLength v) :
    (∃ buf', afterAnswering buf (writeEvents ((canonicalEncoding v).take n)) = some buf') ∨
    ∃ k mid, k < canonicalLength v ∧ afterAnswering buf (writeEvents ((canonicalEncoding v).take k)) = some mid ∧
      (mid.writeByte (canonicalByte v k) = none ∨
       ∃ e buf', mid.writeByte (canonicalByte v k) = some (.fail e, buf')) := by
  induction n with
  | zero => exact .inl ⟨buf, rfl⟩
  | succ n ih =>
    obtain ⟨mid, hmid⟩ | hshort := ih (Nat.le_of_succ_le hn)
    · rcases hw : mid.writeByte (canonicalByte v n) with _ | ⟨_ | e, buf'⟩
      · exact .inr ⟨n, mid, hn, hmid, .inl hw⟩
      · exact .inl ⟨buf', (afterAnswering_take_succ hn).2 ⟨mid, hmid, hw⟩⟩
      · exact .inr ⟨n, mid, hn, hmid, .inr ⟨e, buf', hw⟩⟩
    · exact .inr hshort

theorem execEncode_of_writeFailure {s : State} {v : Value} {k : Nat} {e : FailureToken} {buf buf' : Buffer}
    (hidle : s.block = .idle) (hk : k < canonicalLength v)
    (hs : afterAnswering s.buffer (writeEvents ((canonicalEncoding v).take k)) = some buf)
    (hw : buf.writeByte (canonicalByte v k) = some (.fail e, buf')) :
    exec (.encode v) s =
      .next (ended s (.error (.bufferWriteFailure e)) buf'
        (.command (.encode v) :: writeEvents ((canonicalEncoding v).take k) ++
          [.write (canonicalByte v k) (.fail e), .response (.error (.bufferWriteFailure e))])) := by
  refine execEncode_of_last_pass hidle hk hs ?_ rfl
  rw [← outByte_lsr32_mul hk] at hw
  rw [encodePass_fail rfl hw, finish_waiting, outByte_lsr32_mul hk]

/-- `REM` after `k` passes, as a number (41_encode R71). -/
theorem lsr32_eq_ofNat (v : Value) (n : Nat) : lsr32 v n = BitVec.ofNat 32 (v.toNat / 2 ^ n) := by
  rw [← lsr32_toNat, BitVec.ofNat_toNat, BitVec.setWidth_eq]

theorem execEncode_of_silent {s : State} {v : Value} {k : Nat} {reads : List ReadAnswer}
    (hidle : s.block = .idle) (hk : k < canonicalLength v)
    (hs : afterAnswering s.buffer (writeEvents ((canonicalEncoding v).take k)) = some (.oracle reads [])) :
    exec (.encode v) s =
      .next (waiting s (.encoding (BitVec.ofNat 32 (v.toNat / 2 ^ (7 * k))) k) (.oracle reads [])
        (.command (.encode v) :: writeEvents ((canonicalEncoding v).take k))) := by
  have hle := canonicalLength_le v
  rw [execEncode_of_taken (n := 5 - k) hidle hk hs (by omega), lsr32_eq_ofNat,
    iterate_of_none (encodePass_eq_none.2 (.inr ⟨reads, rfl⟩))]

/-- Everything ENCODE can do in an idle block: the buffer takes the whole encoding; or it fails one of the bytes; or,
before one of them, it has no answer to a write left. -/
theorem execEncode_outcomes {s : State} (v : Value) (hidle : s.block = .idle) :
    (∃ buf, afterAnswering s.buffer (writeEvents (canonicalEncoding v)) = some buf ∧
      exec (.encode v) s =
        .next (ended s (.ok none) buf
          (.command (.encode v) :: writeEvents (canonicalEncoding v) ++ [.response (.ok none)]))) ∨
    (∃ k e buf, k < canonicalLength v ∧
      afterAnswering s.buffer
        (writeEvents ((canonicalEncoding v).take k) ++ [.write (canonicalByte v k) (.fail e)]) = some buf ∧
      exec (.encode v) s =
        .next (ended s (.error (.bufferWriteFailure e)) buf
          (.command (.encode v) :: writeEvents ((canonicalEncoding v).take k) ++
            [.write (canonicalByte v k) (.fail e), .response (.error (.bufferWriteFailure e))]))) ∨
    (∃ k reads, k < canonicalLength v ∧
      afterAnswering s.buffer (writeEvents ((canonicalEncoding v).take k)) = some (.oracle reads []) ∧
      exec (.encode v) s =
        .next (waiting s (.encoding (BitVec.ofNat 32 (v.toNat / 2 ^ (7 * k))) k) (.oracle reads [])
          (.command (.encode v) :: writeEvents ((canonicalEncoding v).take k)))) := by
  obtain ⟨buf, hall⟩ | ⟨k, mid, hk, hs, hw | ⟨e, buf, hw⟩⟩ := taken_cases s.buffer (le_refl (canonicalLength v))
  · rw [canonicalEncoding_take_canonicalLength] at hall
    exact .inl ⟨buf, hall, execEncode_of_taken_all hidle hall⟩
  · obtain ⟨reads, rfl⟩ := Buffer.writeByte_eq_none.1 hw
    exact .inr (.inr ⟨k, reads, hk, hs, execEncode_of_silent hidle hk hs⟩)
  · refine .inr (.inl ⟨k, e, buf, hk, ?_, execEncode_of_writeFailure hidle hk hs hw⟩)
    rw [afterAnswering_append, hs]
    exact afterAnswering_write.2 ⟨buf, hw, rfl⟩

/-- An ENCODE that succeeded wrote the canonical encoding of its value, whatever the buffer. -/
theorem eq_canonicalEncoding_of_events {s t : State} {v : Value} {bs : List Byte} (h : exec (.encode v) s = .next t)
    (hes : eventsSince s t = .command (.encode v) :: writeEvents bs ++ [.response (.ok none)]) :
    bs = canonicalEncoding v := by
  have hidle : s.block = .idle := (exec_eq_next.1 h).1
  obtain ⟨_, -, hexec⟩ | ⟨k, e, _, -, -, hexec⟩ | ⟨k, _, -, -, hexec⟩ := execEncode_outcomes v hidle
  all_goals
    cases h.symm.trans hexec
    rw [eventsSince_of_append rfl] at hes
    simp only [List.cons_append, List.cons.injEq, true_and] at hes
  · exact writeEvents_injective (List.append_cancel_right hes).symm
  · rw [List.append_cons] at hes
    cases List.append_inj_right' hes rfl
  · have hmem : Event.response (.ok none) ∈ writeEvents ((canonicalEncoding v).take k) := by simp [hes]
    exact absurd hmem (response_notMem_writeEvents _ _)

/-! ### The round trip -/

/-- Settles O28: the bytes are the canonical encoding, which DECODE reads back, and SIZEOF answers its length. -/
theorem roundTripOverFaithfulAnswers : Obligations.RoundTripOverFaithfulAnswers := by
  intro s t u v w bs reads writes h hes hidle hbuf
  obtain rfl := eq_canonicalEncoding_of_events h hes
  have hlen : (readEvents (canonicalEncoding v)).length = sizeOfValue v := by
    rw [readEvents, List.length_map, canonicalEncoding_length, sizeOfValue_eq_canonicalLength]
  refine ⟨execDecode_of_canonicalEncoding w v hidle (serves_of_oracle hbuf), _, whenIdle_of_idle _ hidle, ?_⟩
  rw [hlen]
  rfl

/-- The reference buffer serves what was stored at its read position, up to its write position. -/
theorem serves_writeAll {r : RefBuf} {bs : List Byte} (hwf : Memory.wf r.mem = true) :
    serves (.refBuf { r with mem := Memory.writeAll r.mem r.rpos bs, wpos := r.rpos + bs.length }) bs
      (.refBuf { r with mem := Memory.writeAll r.mem r.rpos bs, rpos := r.rpos + bs.length,
                        wpos := r.rpos + bs.length }) :=
  serves_refBuf _ bs le_rfl fun _ hi => (Memory.read_writeAll_getElem r.rpos hwf hi).symm

/-- Settles O29: the first step stores the canonical encoding, and the second reads it back. -/
theorem roundTripThroughRefBuf : Obligations.RoundTripThroughRefBuf := by
  intro s v w r rest hidle hbuf hwf hpos hroom hc
  rw [← canonicalEncoding_length] at hroom ⊢
  have htaken := afterAnswering_writeEvents_refBuf r (canonicalEncoding v) hroom
  have hserves := serves_writeAll (bs := canonicalEncoding v) hwf
  rw [← hpos] at htaken ⊢
  have hencode := (step_of_decoded hidle hc (decodeCommand_encodeCommand _)).trans
    (execEncode_of_taken_all hidle (hbuf ▸ htaken))
  exact ⟨_, Memory.writeAll r.mem r.rpos (canonicalEncoding v), (run_succ_of_step 1 hencode).trans
    (run_succ_of_step 0 ((step_of_decoded rfl rfl (decodeCommand_encodeCommand _)).trans
      (execDecode_of_canonicalEncoding w v rfl hserves))), rfl, rfl, rfl, rfl⟩

/-- Settles O31: both ENCODEs wrote the canonical encoding of their value, and it has that value. -/
theorem encodeIsInjective : Obligations.EncodeIsInjective := by
  intro s s' t t' v v' bs h h' hes hes'
  have heq : canonicalEncoding v = canonicalEncoding v' :=
    (eq_canonicalEncoding_of_events h hes).symm.trans (eq_canonicalEncoding_of_events h' hes')
  rw [← assembled_canonicalEncoding v, heq, assembled_canonicalEncoding]

/-! ### The encoding cut short -/

theorem length_canonicalEncoding_take {v : Value} {k : Nat} (hk : k < canonicalLength v) :
    ((canonicalEncoding v).take k).length = k := by
  rw [List.length_take, canonicalEncoding_length, Nat.min_eq_left hk.le]

/-- The oracle takes as many bytes of an encoding as it answers `Ok` to. -/
theorem afterAnswering_take_oracle {v : Value} {k : Nat} (hk : k < canonicalLength v) {buf : Buffer}
    {reads : List ReadAnswer} {writes : List WriteAnswer}
    (hbuf : buf = .oracle reads (List.replicate k .ok ++ writes)) :
    afterAnswering buf (writeEvents ((canonicalEncoding v).take k)) = some (.oracle reads writes) := by
  have htaken := afterAnswering_writeEvents_oracle ((canonicalEncoding v).take k) reads writes
  rwa [length_canonicalEncoding_take hk, ← hbuf] at htaken

/-- Settles O20: the oracle takes the bytes before the failure, and its next answer is that failure. -/
theorem encodeHandsOnWriteFailure : Obligations.EncodeHandsOnWriteFailure := by
  intro s v k e reads writes hidle hk hbuf
  exact ⟨execEncode_of_writeFailure hidle hk (afterAnswering_take_oracle hk hbuf) rfl,
    List.all_eq_true.1 (canonicalEncoding_take_continues hk)⟩

/-- Settles O21: the oracle takes the bytes it answers, and has no answer left. -/
theorem encodeWaitsForSilentBuffer : Obligations.EncodeWaitsForSilentBuffer := by
  intro s v k reads hidle hk hbuf
  rw [← List.append_nil (List.replicate k _)] at hbuf
  exact execEncode_of_silent hidle hk (afterAnswering_take_oracle hk hbuf)

/-- Settles O24: the reference buffer takes the bytes it has room for, and its answer to the next is its overflow. -/
theorem encodeOverflowLeavesPartialEncoding : Obligations.EncodeOverflowLeavesPartialEncoding := by
  intro s v r k hidle hbuf hwf hcap hk
  have hlen := length_canonicalEncoding_take hk
  have htaken := afterAnswering_writeEvents_refBuf r ((canonicalEncoding v).take k) (by omega)
  rw [hlen, hcap, ← hbuf] at htaken
  refine ⟨Memory.writeAll r.mem r.wpos ((canonicalEncoding v).take k), ?_, fun i hi => ⟨?_, ?_⟩, fun a ha => ?_⟩
  · exact execEncode_of_writeFailure hidle hk htaken (Buffer.writeByte_refBuf_of_ge _ le_rfl)
  · rw [Memory.read_writeAll_getElem r.wpos hwf (hlen.symm ▸ hi), List.getElem_take, canonicalEncoding_getElem]
  · rw [continues_canonicalByte (hi.trans hk)]
    exact decide_eq_true (by omega)
  · exact Memory.read_writeAll_other r.mem (by omega)

/-- Settles O22: the answers are all `Ok`, as many as the encoding has bytes; or `Ok` up to a failure; or `Ok` up to the
last one the buffer has. -/
theorem encodeOffersPrefixOfItsBytes : Obligations.EncodeOffersPrefixOfItsBytes := by
  intro s v hidle
  have hlength := canonicalEncoding_length v
  obtain ⟨buf, hs, hexec⟩ | ⟨k, e, buf, hk, hs, hexec⟩ | ⟨k, reads, hk, hs, hexec⟩ := execEncode_outcomes v hidle
  · have hzip := zipWith_write_replicate (canonicalEncoding v) (canonicalLength v)
    rw [canonicalEncoding_take_canonicalLength] at hzip
    rw [← hzip] at hs
    have horacle reads writes (hbuf : s.buffer = .oracle reads writes) :=
      afterAnswering_zipWith_oracle (by simp [hlength]) (hbuf ▸ hs)
    exact ⟨_, List.replicate (canonicalLength v) .ok, [.response (.ok none)], hexec, by simp, by simp, rfl, horacle,
      by simp [ended, hzip], rfl, rfl, rfl, rfl⟩
  · have hzip := zipWith_write_replicate_concat (hk.trans_eq hlength.symm) (.fail e)
    rw [canonicalEncoding_getElem] at hzip
    rw [← hzip] at hs
    have horacle reads writes (hbuf : s.buffer = .oracle reads writes) :=
      afterAnswering_zipWith_oracle (by simpa [hlength] using hk) (hbuf ▸ hs)
    exact ⟨_, List.replicate k .ok ++ [.fail e], [.response (.error (.bufferWriteFailure e))], hexec, by simpa using hk,
      by simp, rfl, horacle, by simp [ended, hzip], rfl, rfl, e, rfl, by simp⟩
  · have hzip := zipWith_write_replicate (canonicalEncoding v) k
    rw [← hzip] at hs
    have horacle reads writes (hbuf : s.buffer = .oracle reads writes) :=
      afterAnswering_zipWith_oracle (by simpa [hlength] using hk.le) (hbuf ▸ hs)
    exact ⟨_, List.replicate k .ok, [], hexec, by simpa using hk.le, by simp, rfl, horacle, by simp [waiting, hzip],
      rfl, by simpa using hk, by simp, by simp [waiting], reads, rfl⟩

end Sys2Proof.Safety

/-! SUPPORT. SIZEOF, and how many bytes a successful ENCODE writes and a successful DECODE reads (42_sizeof R80 to
R84, 70_reset_and_hazards R119). -/

namespace Sys2Proof.Safety

open Sys2Proof.Machine

/-! ### SIZEOF -/

/-- SIZEOF in an idle block ends at once, with the canonical length and no transaction. -/
theorem execSizeof_of_idle {s : State} (v : Value) (hidle : s.block = .idle) :
    exec (.sizeof v) s =
      .next (ended s (.ok (some (BitVec.ofNat 32 (canonicalLength v)))) s.buffer
        [.command (.sizeof v), .response (.ok (some (BitVec.ofNat 32 (canonicalLength v))))]) := by
  rw [← sizeOfValue_eq_canonicalLength]
  exact (whenIdle_of_idle _ hidle).trans
    (congrArg _ (State.ext_fields rfl rfl rfl rfl (List.append_assoc s.trace _ _)))

/-- Settles O26: the thresholds are those of the canonical length. -/
theorem sizeofAnswersByThresholds : Obligations.SizeofAnswersByThresholds := by
  intro s v n hidle hrange
  have hlength : canonicalLength v = n := by
    rw [← sizeOfValue_eq_canonicalLength, sizeOfValue_eq]
    split_ifs <;> omega
  rw [← hlength]
  exact execSizeof_of_idle v hidle

/-! ### Counting transactions -/

theorem countP_isWrite_writeEvents (bs : List Byte) : (writeEvents bs).countP isWrite = bs.length := by
  simp [writeEvents, List.countP_map, Function.comp_def, isWrite]

theorem countP_isRead_readEvents (bs : List Byte) : (readEvents bs).countP isRead = bs.length := by
  simp [readEvents, List.countP_map, Function.comp_def, isRead]

/-- Settles O27: of the ways an ENCODE goes, only the one in which the buffer takes the whole encoding answers `OK`. -/
theorem sizeofEqualsBytesEncodeWrites : Obligations.SizeofEqualsBytesEncodeWrites := by
  intro s t u v h hok hu
  refine ⟨_, execSizeof_of_idle v hu, ?_⟩
  have hs : s.block = .idle := (exec_eq_next.1 h).1
  obtain ⟨_, -, hexec⟩ | ⟨_, _, _, -, -, hexec⟩ | ⟨_, _, -, -, hexec⟩ := execEncode_outcomes v hs
  all_goals
    cases h.symm.trans hexec
    cases hok
  rw [eventsSince_of_append rfl]
  simp [ended, isWrite, countP_isWrite_writeEvents, canonicalEncoding_length]

/-! ### The ways a DECODE goes -/

/-- A buffer serves `n` bytes that say more follow; or it serves fewer, and then a terminator, or it fails, or it does
not answer. -/
theorem serves_cases (n : Nat) (buf : Buffer) :
    (∃ bs buf', bs.length = n ∧ bs.all continues = true ∧ serves buf bs buf') ∨
    ∃ bs mid, bs.length < n ∧ bs.all continues = true ∧ serves buf bs mid ∧
      ((∃ b buf', mid.readByte = some (.ok b, buf') ∧ continues b = false) ∨
       (∃ e buf', mid.readByte = some (.fail e, buf')) ∨ mid.readByte = none) := by
  induction n with
  | zero => exact .inl ⟨[], buf, rfl, rfl, rfl⟩
  | succ n ih =>
    obtain ⟨bs, mid, rfl, hall, hs⟩ | ⟨bs, mid, hlen, hshort⟩ := ih
    · rcases hr : mid.readByte with _ | ⟨b | e, buf'⟩
      · exact .inr ⟨bs, mid, Nat.lt_succ_self _, hall, hs, .inr (.inr hr)⟩
      · cases hb : continues b with
        | false => exact .inr ⟨bs, mid, Nat.lt_succ_self _, hall, hs, .inl ⟨b, buf', hr, hb⟩⟩
        | true => exact .inl ⟨bs ++ [b], buf', by simp, by simp [hb, hall], serves_concat.2 ⟨mid, hs, hr⟩⟩
      · exact .inr ⟨bs, mid, Nat.lt_succ_self _, hall, hs, .inr (.inl ⟨e, buf', hr⟩)⟩
    · exact .inr ⟨bs, mid, Nat.lt_succ_of_lt hlen, hshort⟩

/-- DECODE over a buffer that serves fewer than ten bytes, all of which say more follow, and does not answer the next
read, waits (60_exceptions R95). -/
theorem execDecode_of_silent {s : State} (v : Value) {bs : List Byte} {buf : Buffer} (hidle : s.block = .idle)
    (hs : serves s.buffer bs buf) (hc : bs.all continues = true) (hlen : bs.length ≤ 9) (hr : buf.readByte = none) :
    exec (.decode v) s =
      .next (waiting s (.decoding (assembled bs) bs.length) buf (.command (.decode v) :: readEvents bs)) := by
  rw [execDecode_of_serves (n := 9 - bs.length) v hidle hs hc (by omega),
    iterate_of_none (decodePass_eq_none.2 (.inr hr))]

/-- Everything DECODE can do in an idle block: the buffer serves an accepted string; or ten bytes that all say more
follow; or, after at most nine such bytes, it fails a read; or it does not answer one. -/
theorem execDecode_outcomes {s : State} (v : Value) (hidle : s.block = .idle) :
    (∃ bs buf, accepted bs = true ∧ serves s.buffer bs buf ∧
      exec (.decode v) s =
        .next (ended s (.ok (some (assembled bs))) buf
          (.command (.decode v) :: readEvents bs ++ [.response (.ok (some (assembled bs)))]))) ∨
    (∃ bs buf, bs.length = 10 ∧ bs.all continues = true ∧ serves s.buffer bs buf ∧
      exec (.decode v) s =
        .next (ended s (.error .varintTooLong) buf
          (.command (.decode v) :: readEvents bs ++ [.response (.error .varintTooLong)]))) ∨
    (∃ bs mid e buf, bs.length ≤ 9 ∧ bs.all continues = true ∧ serves s.buffer bs mid ∧
      mid.readByte = some (.fail e, buf) ∧
      exec (.decode v) s =
        .next (ended s (.error (.bufferReadFailure e)) buf
          (.command (.decode v) :: readEvents bs ++
            [.read (.fail e), .response (.error (.bufferReadFailure e))]))) ∨
    (∃ bs buf, bs.length ≤ 9 ∧ bs.all continues = true ∧ serves s.buffer bs buf ∧ buf.readByte = none ∧
      exec (.decode v) s =
        .next (waiting s (.decoding (assembled bs) bs.length) buf (.command (.decode v) :: readEvents bs))) := by
  obtain ⟨bs, buf, hlen, hall, hs⟩ | ⟨bs, mid, hlen, hall, hs, hlast⟩ := serves_cases 10 s.buffer
  · exact .inr (.inl ⟨bs, buf, hlen, hall, hs, execDecode_of_tenContinuationBytes v hidle hs hlen hall⟩)
  have hle : bs.length ≤ 9 := Nat.le_of_lt_succ hlen
  obtain ⟨b, buf, hr, hb⟩ | ⟨e, buf, hr⟩ | hr := hlast
  · have haccepted : accepted (bs ++ [b]) = true := accepted_concat.2 ⟨hle, hall, hb⟩
    have hserves : serves s.buffer (bs ++ [b]) buf := serves_concat.2 ⟨mid, hs, hr⟩
    exact .inl ⟨bs ++ [b], buf, haccepted, hserves, execDecode_of_accepted v hidle hserves haccepted⟩
  · exact .inr (.inr (.inl ⟨bs, mid, e, buf, hle, hall, hs, hr, execDecode_of_readFailure v hidle hs hall hle hr⟩))
  · exact .inr (.inr (.inr ⟨bs, mid, hle, hall, hs, hr, execDecode_of_silent v hidle hs hall hle hr⟩))

/-! ### The canonical encoding is the shortest -/

/-- The canonical length is the least number of groups, but not 0, that hold the value (30_encoding R42). -/
theorem canonicalLength_le_of_lt {v : Value} {n : Nat} (hpos : 1 ≤ n) (hv : v.toNat < 2 ^ (7 * n)) :
    canonicalLength v ≤ n := by
  rcases Nat.lt_or_ge n 5 with hn | hn
  · rw [← sizeOfValue_eq_canonicalLength, sizeOfValue_eq]
    interval_cases n <;> split_ifs <;> omega
  · exact (canonicalLength_le v).trans hn

/-- No accepted string is shorter than the canonical encoding of its value. -/
theorem canonicalLength_assembled_le {bs : List Byte} (hpos : 1 ≤ bs.length) :
    canonicalLength (assembled bs) ≤ bs.length :=
  canonicalLength_le_of_lt hpos (absorbAll_eq_assembled bs ▸ absorbAll_toNat_lt bs)

theorem length_of_accepted {bs : List Byte} (h : accepted bs = true) : 1 ≤ bs.length ∧ bs.length ≤ 10 := by
  simp only [accepted, Bool.and_eq_true, decide_eq_true_eq] at h
  obtain ⟨⟨hlength, -⟩, -⟩ := h
  exact hlength

/-- Settles O32: of the ways a DECODE goes, only an accepted string gives a value, and none shorter than the canonical
encoding has it. -/
theorem decodeReadsAtLeastSizeof : Obligations.DecodeReadsAtLeastSizeof := by
  intro s t v r h hr
  have hidle : s.block = .idle := (exec_eq_next.1 h).1
  obtain ⟨bs, _, haccepted, -, hexec⟩ | ⟨_, _, -, -, -, hexec⟩ | ⟨_, _, _, _, -, -, -, -, hexec⟩ |
    ⟨_, _, -, -, -, -, hexec⟩ := execDecode_outcomes v hidle
  all_goals
    cases h.symm.trans hexec
    cases hr
  obtain ⟨hpos, hle⟩ := length_of_accepted haccepted
  rw [eventsSince_of_append rfl]
  simpa [isRead, countP_isRead_readEvents] using ⟨canonicalLength_assembled_le hpos, hle⟩

end Sys2Proof.Safety

/-! SUPPORT. How operations end and where steps stop: failure tokens and the response's codes on the port
(60_exceptions R90, R92, R93), the stops of a step (R95), and the one response of each operation (R96, R100). -/

namespace Sys2Proof.Safety

open Sys2Proof.Machine

/-! ### Failure tokens and status codes -/

/-- Settles O39: renaming goes through the command events and the step, and at `FailureToken` these are `exec` and
`step`. -/
theorem failureTokensAreNotInterpreted : Obligations.FailureTokensAreNotInterpreted :=
  ⟨fun _ _ f s => ⟨fun i => execAt_renameState f i s, stepAt_renameState f s⟩,
    fun s => ⟨fun i => execAt_eq_exec i s, stepAt_eq_step s⟩⟩

/-- Settles O36: each field of the port is read off the response. -/
theorem responseCodesOnThePort : Obligations.ResponseCodesOnThePort :=
  fun _ => ⟨fun _ => ⟨rfl, rfl⟩, fun _ => rfl, rfl, rfl, fun _ => ⟨rfl, rfl⟩, fun _ => ⟨rfl, rfl⟩⟩

/-! ### Where a step stops -/

/-- The command words without a command are, as numbers, those from `3 * 2^32` on (30_encoding R49, R53). -/
theorem decodeCommand_eq_error_iff (w : CommandWord) :
    decodeCommand w = .error .reservedCode ↔ 3 * 2 ^ 32 ≤ w.toNat := by
  have hv := (cmdValue w).isLt
  rw [← cmdOp_append_cmdValue w, toNat_append_value]
  simp only [decodeCommand, cmdOp_append]
  split_ifs with hdecode hencode hsizeof
  · exact iff_of_false (by simp) (by bv_omega)
  · exact iff_of_false (by simp) (by bv_omega)
  · exact iff_of_false (by simp) (by bv_omega)
  · have hop : cmdOp w = 3#2 := by bv_omega
    simp [hop]

/-- A busy block has no pass exactly where it waits for a buffer with no answer to its next transaction. -/
theorem busy_nextPass_eq_none_iff (s : State) :
    s.block ≠ .idle ∧ nextPass s = none ↔
      (∃ acc idx writes, s.block = .decoding acc idx ∧ s.buffer = .oracle [] writes) ∨
      (∃ rem idx reads, s.block = .encoding rem idx ∧ s.buffer = .oracle reads []) := by
  cases hb : s.block with
  | idle => simp
  | decoding acc idx =>
    simp [nextPass_eq_none_iff_asksNoMore, hb, asksNoMore_decoding, Buffer.readByte_eq_none]
  | encoding rem idx =>
    simp [nextPass_eq_none_iff_asksNoMore, hb, asksNoMore_encoding 0#8, Buffer.writeByte_eq_none]

/-- Every step: reset; or an idle block without a command, with a reserved word, or with a command; or a busy block
that waits for its buffer, or goes on. -/
theorem step_outcomes (s : State) :
    (∃ rest t, s.caller = .reset :: rest ∧ step s = .next t) ∨
    (s.block = .idle ∧ s.caller = [] ∧ step s = .fault .noCommand) ∨
    (∃ w rest, s.block = .idle ∧ s.caller = .command w :: rest ∧ decodeCommand w = .error .reservedCode ∧
      step s = .refused .reservedCommand) ∨
    (∃ w rest i t, s.block = .idle ∧ s.caller = .command w :: rest ∧ decodeCommand w = .ok i ∧ step s = .next t) ∨
    ((∀ rest, s.caller ≠ .reset :: rest) ∧ s.block ≠ .idle ∧ nextPass s = none ∧
      step s = .fault .bufferDoesNotAnswer) ∨
    (∃ t, s.block ≠ .idle ∧ nextPass s ≠ none ∧ step s = .next t) := by
  by_cases hreset : ∃ rest, s.caller = .reset :: rest
  · obtain ⟨rest, hc⟩ := hreset
    exact .inl ⟨rest, resetBlock (s.withCaller rest), hc, by simp only [step, stepWith, hc]⟩
  rw [not_exists] at hreset
  by_cases hidle : s.block = .idle
  · rcases hc : s.caller with _ | ⟨w | _, rest⟩
    · exact .inr (.inl ⟨hidle, rfl, by simp only [step, stepWith, hc, hidle]⟩)
    · rcases hd : decodeCommand w with ⟨⟩ | i
      · refine .inr (.inr (.inl ⟨w, rest, hidle, rfl, hd, ?_⟩))
        rw [step_of_command hidle hc, issueWith, hd]
      · have hrun := exec_of_idle i (s := s.withCaller rest) hidle
        exact .inr (.inr (.inr (.inl ⟨w, rest, i, _, hidle, rfl, hd, (step_of_decoded hidle hc hd).trans hrun⟩)))
    · exact absurd hc (hreset rest)
  · have hresume := step_of_busy hidle hreset
    cases hp : nextPass s with
    | none =>
      exact .inr (.inr (.inr (.inr (.inl ⟨hreset, hidle, rfl, hresume.trans (resume_of_none hp)⟩))))
    | some u =>
      exact .inr (.inr (.inr (.inr (.inr ⟨_, hidle, by simp, hresume.trans (resume_of_some hp)⟩))))

/-- Settles O8: in each of the ways a step goes, the conditions of all the stops are decided. -/
theorem stepStopsOnlyWhereNoEventCanHappen : Obligations.StepStopsOnlyWhereNoEventCanHappen := by
  intro s
  simp only [← busy_nextPass_eq_none_iff, ← decodeCommand_eq_error_iff]
  obtain ⟨rest, t, hc, hstep⟩ | ⟨hidle, hc, hstep⟩ | ⟨w, rest, hidle, hc, hd, hstep⟩ |
    ⟨w, rest, i, t, hidle, hc, hd, hstep⟩ | ⟨hreset, hbusy, hp, hstep⟩ | ⟨t, hbusy, hp, hstep⟩ := step_outcomes s
  · simp [hstep, hc]
  · simp [hstep, hidle, hc]
  · simpa [hstep, hidle, hc, hd] using fun r => eq_comm
  · simp [hstep, hidle, hc, hd]
  · simp [hstep, hbusy, hp, hreset]
  · simp [hstep, hbusy, hp]

/-! ### The one response of each operation -/

/-- A pass of an operation records one transaction; then the operation ends, or the block stays busy. -/
theorem nextPass_cases {s t : State} (h : nextPass s = some t) :
    ∃ e buf, isCommand e = false ∧ isResponse e = false ∧
      ((∃ r, t = finish r ((s.withBuffer buf).record e)) ∨
       (∃ b, b ≠ .idle ∧ t = ((s.withBuffer buf).record e).withBlock b)) := by
  rcases nextPass_eq_some.1 h with h | h
  · obtain ⟨acc, idx, a, buf, -, -, h⟩ := decodePass_cases h
    refine ⟨.read a, buf, rfl, rfl, ?_⟩
    rcases h with ⟨e, -, rfl⟩ | ⟨b, -, -, rfl⟩ | ⟨b, -, -, -, rfl⟩ | ⟨b, -, -, -, rfl⟩
    · exact .inl ⟨_, rfl⟩
    · exact .inl ⟨_, rfl⟩
    · exact .inl ⟨_, rfl⟩
    · exact .inr ⟨_, by simp, rfl⟩
  · obtain ⟨rem, idx, a, buf, -, -, h⟩ := encodePass_cases h
    refine ⟨.write (outByte rem) a, buf, rfl, rfl, ?_⟩
    rcases h with ⟨e, -, rfl⟩ | ⟨-, -, rfl⟩ | ⟨-, -, rfl⟩
    · exact .inl ⟨_, rfl⟩
    · exact .inl ⟨_, rfl⟩
    · exact .inr ⟨_, by simp, rfl⟩

/-- Since `s` the command `i` has been recorded, and after it no command and no response; the port is empty. -/
def Unanswered (i : Instr) (s t : State) : Prop :=
  t.response = none ∧
    ∃ es, t.trace = s.trace ++ .command i :: es ∧ es.any isCommand = false ∧ es.any isResponse = false

theorem unanswered_accept (i : Instr) (s : State) : Unanswered i s (accept i s) :=
  ⟨rfl, [], rfl, rfl, rfl⟩

theorem Unanswered.transaction {i : Instr} {s t : State} (h : Unanswered i s t) {e : Event}
    (hcommand : isCommand e = false) (hresponse : isResponse e = false) (buf : Buffer) :
    Unanswered i s ((t.withBuffer buf).record e) := by
  obtain ⟨hport, es, htrace, hcommands, hresponses⟩ := h
  exact ⟨hport, es ++ [e], by simp [htrace], by simp [hcommands, hcommand], by simp [hresponses, hresponse]⟩

/-- The operation `i` begun in `s` is in progress in `t` and has given no response, or its response is what `t` came
by. -/
def AnsweredIfIdle (i : Instr) (s t : State) : Prop :=
  t.block ≠ .idle ∧ Unanswered i s t ∨ ∃ r u, Unanswered i s u ∧ t = finish r u

theorem answeredIfIdle_begun (i : Instr) (s : State) : AnsweredIfIdle i s (begun i s) := by
  cases i with
  | decode v => exact .inl ⟨by simp [begun], unanswered_accept _ s⟩
  | encode v => exact .inl ⟨by simp [begun], unanswered_accept _ s⟩
  | sizeof v => exact .inr ⟨_, _, unanswered_accept _ s, rfl⟩

theorem AnsweredIfIdle.nextPass {i : Instr} {s t u : State} (ht : AnsweredIfIdle i s t) (h : nextPass t = some u) :
    AnsweredIfIdle i s u := by
  obtain ⟨-, hopen⟩ | ⟨r, v, -, rfl⟩ := ht
  · obtain ⟨e, buf, hcommand, hresponse, ⟨r, rfl⟩ | ⟨b, hbusy, rfl⟩⟩ := nextPass_cases h
    · exact .inr ⟨r, _, hopen.transaction hcommand hresponse buf, rfl⟩
    · exact .inl ⟨hbusy, hopen.transaction hcommand hresponse buf⟩
  · simp [nextPass_of_idle (finish_block r v)] at h

/-- Settles O35: the beginning of a command establishes that an operation is unanswered while it is in progress and
that its response is what ends it, and every pass keeps this. -/
theorem oneResponseEndsEachOperation : Obligations.OneResponseEndsEachOperation := by
  intro i s t h
  obtain ⟨-, rfl⟩ := exec_eq_next.1 h
  have hkept : AnsweredIfIdle i s (runOperation (begun i s)) :=
    runOperation_induction (fun _ _ => AnsweredIfIdle.nextPass) (answeredIfIdle_begun i s)
  obtain ⟨hbusy, hport, es, htrace, hcommands, hresponses⟩ |
    ⟨r, u, ⟨-, es, htrace, hcommands, hresponses⟩, hend⟩ := hkept
  · refine ⟨es, htrace, hcommands, ?_⟩
    cases hb : (runOperation (begun i s)).block with
    | idle => exact absurd hb hbusy
    | decoding acc idx => exact ⟨hresponses, hport⟩
    | encoding rem idx => exact ⟨hresponses, hport⟩
  · rw [hend]
    refine ⟨es ++ [.response r], by simp [htrace], by simp [hcommands, isCommand], ?_⟩
    exact ⟨r, es, rfl, hresponses, rfl⟩

end Sys2Proof.Safety

/-! SUPPORT. The step and the block's condition (70_reset_and_hazards): an idle block runs the decoded command, a busy
block accepts none (R116), and every operation ends if the buffer answers every transaction (R123). -/

namespace Sys2Proof.Safety

open Sys2Proof.Machine

/-! ### Commands of an idle and of a busy block -/

/-- Settles O4: the word is taken from the caller's inputs, and the command it decodes to is run. -/
theorem stepRunsDecodedCommand : Obligations.StepRunsDecodedCommand :=
  fun _ _ _ _ hidle hc hi _ => step_of_decoded hidle hc hi

/-- No command event has a step in a busy block. -/
theorem exec_of_busy (i : Instr) {s : State} (hbusy : s.block ≠ .idle) : exec i s = .fault .commandWhileBusy := by
  cases i <;> exact whenIdle_of_busy _ hbusy

/-- A pass of an operation takes nothing from the caller and records no command. -/
theorem nextPass_records {s t : State} (h : nextPass s = some t) : OnlyRecords (fun e => !isCommand e) s t := by
  obtain ⟨e, buf, hcommand, -, hend⟩ := nextPass_cases h
  have htransaction : OnlyRecords (fun e => !isCommand e) s ((s.withBuffer buf).record e) :=
    onlyRecords_transaction (by simp [hcommand]) s buf
  obtain ⟨r, rfl⟩ | ⟨b, -, rfl⟩ := hend
  · exact htransaction.trans (onlyRecords_finish r _)
  · exact htransaction

theorem runOperation_records (s : State) : OnlyRecords (fun e => !isCommand e) s (runOperation s) :=
  runOperation_induction (fun _ _ hs h => hs.trans (nextPass_records h)) (OnlyRecords.refl s)

theorem isCommand_of_isResponse {e : Event} (h : isResponse e = true) : isCommand e = false := by
  cases e <;> simp_all [isResponse, isCommand]

/-- Settles O7: a step of a busy block that is not reset is its operation going on, and the operation records
transactions and a response only. -/
theorem busyBlockAcceptsNoCommand : Obligations.BusyBlockAcceptsNoCommand := by
  intro s hbusy
  refine ⟨fun i => exec_of_busy i hbusy, fun t hreset h => ?_⟩
  obtain ⟨rest, hc, -⟩ | ⟨_, _, hidle, -⟩ | rfl := step_eq_next_cases h
  · exact absurd hc (hreset rest)
  · exact absurd hidle hbusy
  · obtain ⟨hcaller, es, htrace, hes⟩ := runOperation_records s
    refine ⟨hcaller, es, htrace, List.any_eq_false.2 fun e he => ?_⟩
    rcases hes e he with hother | hresponse
    · simpa using hother
    · simp [isCommand_of_isResponse hresponse]

/-! ### A buffer that answers every transaction -/

/-- A buffer that has become an oracle by serving bytes was an oracle with an answer for each of them. -/
theorem eq_oracle_of_serves {buf : Buffer} {bs : List Byte} {reads : List ReadAnswer} {writes : List WriteAnswer}
    (h : serves buf bs (.oracle reads writes)) : buf = .oracle (bs.map .ok ++ reads) writes := by
  induction bs generalizing buf with
  | nil => exact Eq.symm h
  | cons b bs ih =>
    obtain ⟨mid, hr, hs⟩ := h
    obtain rfl := ih hs
    obtain ⟨_, _, rfl, hmid⟩ | ⟨_, _, _, _, hmid⟩ | ⟨_, _, _, _, hmid⟩ := Buffer.readByte_cases hr
    all_goals cases hmid
    cases hr
    rfl

/-- A buffer that has become an oracle by taking bytes was an oracle with an answer for each of them. -/
theorem eq_oracle_of_taken {buf : Buffer} {bs : List Byte} {reads : List ReadAnswer} {writes : List WriteAnswer}
    (h : afterAnswering buf (writeEvents bs) = some (.oracle reads writes)) :
    buf = .oracle reads (List.replicate bs.length .ok ++ writes) := by
  induction bs generalizing buf with
  | nil => exact Option.some.inj h
  | cons b bs ih =>
    obtain ⟨mid, hw, hs⟩ := afterAnswering_write.1 h
    obtain rfl := ih hs
    obtain ⟨_, _, rfl, hmid⟩ | ⟨_, _, _, _, hmid⟩ | ⟨_, _, _, _, hmid⟩ := Buffer.writeByte_cases hw
    all_goals cases hmid
    cases hw
    rfl

/-- A DECODE ends over the reference buffer, and over an oracle with ten answers to reads. -/
theorem execDecode_ends {s : State} (v : Value) (hidle : s.block = .idle)
    (hbuf : (∃ r, s.buffer = .refBuf r) ∨ ∃ reads writes, s.buffer = .oracle reads writes ∧ 10 ≤ reads.length) :
    ∃ r buf es, exec (.decode v) s = .next (ended s r buf es) := by
  obtain ⟨_, _, -, -, h⟩ | ⟨_, _, -, -, -, h⟩ | ⟨_, _, _, _, -, -, -, -, h⟩ | ⟨bs, buf, hlen, -, hs, hr, -⟩ :=
    execDecode_outcomes v hidle
  · exact ⟨_, _, _, h⟩
  · exact ⟨_, _, _, h⟩
  · exact ⟨_, _, _, h⟩
  · obtain ⟨writes, rfl⟩ := Buffer.readByte_eq_none.1 hr
    have hten : 10 ≤ bs.length := by simpa [eq_oracle_of_serves hs] using hbuf
    omega

/-- An ENCODE ends over the reference buffer, and over an oracle with five answers to writes. -/
theorem execEncode_ends {s : State} (v : Value) (hidle : s.block = .idle)
    (hbuf : (∃ r, s.buffer = .refBuf r) ∨ ∃ reads writes, s.buffer = .oracle reads writes ∧ 5 ≤ writes.length) :
    ∃ r buf es, exec (.encode v) s = .next (ended s r buf es) := by
  obtain ⟨_, -, h⟩ | ⟨_, _, _, -, -, h⟩ | ⟨k, reads, hk, hs, -⟩ := execEncode_outcomes v hidle
  · exact ⟨_, _, _, h⟩
  · exact ⟨_, _, _, h⟩
  · have hfive : 5 ≤ k := by simpa [eq_oracle_of_taken hs, length_canonicalEncoding_take hk] using hbuf
    have hle := canonicalLength_le v
    omega

/-- Settles O34: a DECODE or an ENCODE that waits has used up an oracle of fewer than ten or five answers, and a SIZEOF
never waits. -/
theorem everyOperationEndsIfTheBufferAnswers : Obligations.EveryOperationEndsIfTheBufferAnswers := by
  intro i s hidle hbuf
  have hends : ∃ r buf es, exec i s = .next (ended s r buf es) := by
    cases i with
    | decode v => exact execDecode_ends v hidle hbuf
    | encode v => exact execEncode_ends v hidle hbuf
    | sizeof v => exact ⟨_, _, _, execSizeof_of_idle v hidle⟩
  obtain ⟨r, buf, es, h⟩ := hends
  exact ⟨_, r, h, rfl, rfl⟩

end Sys2Proof.Safety
